-- ==== Sys2Proof/Word.lean ====
section
/-! DEFINITION. The byte, the register index and the plainest conversions between them. -/

namespace Sys2Proof

/-- A byte: an unsigned integer 0..255 (00_scope.md R6, parameter BYTE of R5). -/
abbrev Byte := BitVec 8

/-- The index of a register, 0..7 (10_state.md R20, parameter NUM_REGS of 00_scope.md R5). An index out of range
cannot be built: the decoder makes the one check of R21 and R115. -/
abbrev Reg := Fin 8

/-- SP is the alias of R7 (10_state.md R20, R23; parameter SP_INDEX of 00_scope.md R5). -/
def Reg.sp : Reg := 7

end Sys2Proof
end

