-- ==== Sys2Proof/Syntax.lean ====
section
/-! DEFINITION. The instruction set as syntax: the mnemonics of the opcode map and the decoded instructions. -/

namespace Sys2Proof

/-- The fifteen mnemonics of the opcode map (30_encoding.md R84), in the table's order. -/
inductive Op where
  | hlt | ldi | prn | mul | cmp | push | pop | call | ret | jmp | jeq | jne | add | sub | div
  deriving DecidableEq, Repr

/-- Every mnemonic once, in the order of 30_encoding.md R84. -/
def Op.all : List Op :=
  [.hlt, .ldi, .prn, .mul, .cmp, .push, .pop, .call, .ret, .jmp, .jeq, .jne, .add, .sub, .div]

/-- A decoded instruction, one constructor per row of spec/opcode_table.json. Operands follow the roles of
30_encoding.md R87: a checked register index is a `Reg`, the immediate of LDI is the whole byte. -/
inductive Instr where
  /-- Halt (40_control_unit.md R121). -/
  | hlt
  /-- Load immediate: `a` destination, `imm` the byte (41_load_and_output.md R140). -/
  | ldi (a : Reg) (imm : Byte)
  /-- Print register `a` (41_load_and_output.md R141). -/
  | prn (a : Reg)
  /-- Multiply: `a` destination and first source, `b` second source (42_alu.md R153). -/
  | mul (a b : Reg)
  /-- Compare register `a` with register `b` (42_alu.md R154). -/
  | cmp (a b : Reg)
  /-- Push register `a` (43_stack.md R172). -/
  | push (a : Reg)
  /-- Pop into register `a` (43_stack.md R173). -/
  | pop (a : Reg)
  /-- Call the address held in register `a` (44_control_flow.md R181). -/
  | call (a : Reg)
  /-- Return (44_control_flow.md R182). -/
  | ret
  /-- Jump to the address held in register `a` (44_control_flow.md R183). -/
  | jmp (a : Reg)
  /-- Jump if equal (44_control_flow.md R184). -/
  | jeq (a : Reg)
  /-- Jump if not equal (44_control_flow.md R185). -/
  | jne (a : Reg)
  /-- Add (42_alu.md R155), dispatched only under EXT_ALU. -/
  | add (a b : Reg)
  /-- Subtract (42_alu.md R156), dispatched only under EXT_ALU. -/
  | sub (a b : Reg)
  /-- Divide: `a` destination and dividend, `b` divisor (42_alu.md R157), dispatched only under EXT_ALU. -/
  | div (a b : Reg)
  deriving DecidableEq, Repr

/-- The mnemonic of an instruction: the row of 30_encoding.md R84 it belongs to. -/
def Instr.op : Instr → Op
  | .hlt => .hlt
  | .ldi _ _ => .ldi
  | .prn _ => .prn
  | .mul _ _ => .mul
  | .cmp _ _ => .cmp
  | .push _ => .push
  | .pop _ => .pop
  | .call _ => .call
  | .ret => .ret
  | .jmp _ => .jmp
  | .jeq _ => .jeq
  | .jne _ => .jne
  | .add _ _ => .add
  | .sub _ _ => .sub
  | .div _ _ => .div

end Sys2Proof
end

