-- ==== Sys2Proof/Config.lean ====
section
/-! DEFINITION. The implementation parameters of 00_scope.md R5: the fixed ones as constants, the open ones as
fields of `Config`. -/

namespace Sys2Proof

/-- The flags register: three independent named booleans with no packed layout (10_state.md R29). -/
structure Flags where
  /-- FL.E, `equal`. -/
  equal : Bool
  /-- FL.L, `less_than`. -/
  lessThan : Bool
  /-- FL.G, `greater_than`. -/
  greaterThan : Bool
  deriving DecidableEq, Repr

/-- MEM_SIZE: 256 bytes, addresses 0x00..0xFF (00_scope.md R5, 20_memory.md R50). -/
def memSize : Nat := 256

/-- SP_RESET (00_scope.md R5, 10_state.md R25). -/
def spReset : Byte := 0xF4

/-- PC_RESET (00_scope.md R5, 10_state.md R28). -/
def pcReset : Nat := 0

/-- The open parameters of 00_scope.md R5. Their defaults are `Config.standard` (Decode.lean). -/
structure Config where
  /-- OPCODE_MAP: the opcode byte of each mnemonic (30_encoding.md R84; 92_eei_decisions.md D2). -/
  opcodeMap : Op → Byte
  /-- EXT_ALU: whether ADD, SUB and DIV are dispatched (92_eei_decisions.md D3). -/
  extAlu : Bool
  /-- FLAGS_RESET: the flags right after reset (92_eei_decisions.md D5). -/
  flagsReset : Flags

end Sys2Proof
end

