-- ==== Sys2Proof/WellFormed.lean ====
section
/-! DEFINITION. Which parameter values make an opcode map, and which instructions a core with them has. -/

namespace Sys2Proof

/-- Whether the mnemonic has a row in the dispatch table: ADD, SUB and DIV only when EXT_ALU is true
(30_encoding.md R84, 40_control_unit.md R114). -/
def Config.dispatched (cfg : Config) : Op → Bool
  | .add | .sub | .div => cfg.extAlu
  | .hlt | .ldi | .prn | .mul | .cmp | .push | .pop | .call | .ret | .jmp | .jeq | .jne => true

/-- The parameters describe an opcode map: no two rows of the dispatch table share an opcode byte
(30_encoding.md R83: a mapping from opcode byte to its metadata). -/
def Config.wellFormed (cfg : Config) : Bool :=
  (Op.all.filter cfg.dispatched).all fun p =>
    (Op.all.filter cfg.dispatched).all fun q => cfg.opcodeMap p != cfg.opcodeMap q || p == q

/-- The core has this instruction: its mnemonic is dispatched (30_encoding.md R84, R88). Register operands need no
check, since a `Reg` is 0..7 (40_control_unit.md R115), and no immediate is ever checked (R87). -/
def Instr.wellFormed (cfg : Config) (i : Instr) : Bool :=
  cfg.dispatched i.op

end Sys2Proof
end

