-- ==== Sys2Proof/Decode.lean ====
section
/-! DEFINITION. The static metadata of each opcode, the decoder (total on any bytes), the encoder, and the default
parameters. -/

namespace Sys2Proof

/-- The `sets_pc` column of 30_encoding.md R84. -/
inductive SetsPc where
  /-- HLT: the run ends. -/
  | terminates
  | no
  | yes
  | conditional
  deriving DecidableEq, Repr

/-- `operand_count`: static metadata of the opcode, declared and never inferred from its bits
(30_encoding.md R83, R84; 90_conflicts.md C1). -/
def Op.operandCount : Op → Nat
  | .hlt => 0
  | .ldi => 2
  | .prn => 1
  | .mul => 2
  | .cmp => 2
  | .push => 1
  | .pop => 1
  | .call => 1
  | .ret => 0
  | .jmp => 1
  | .jeq => 1
  | .jne => 1
  | .add => 2
  | .sub => 2
  | .div => 2

/-- `sets_pc`: static metadata of the opcode (30_encoding.md R83, R84). -/
def Op.setsPc : Op → SetsPc
  | .hlt => .terminates
  | .ldi => .no
  | .prn => .no
  | .mul => .no
  | .cmp => .no
  | .push => .no
  | .pop => .no
  | .call => .yes
  | .ret => .yes
  | .jmp => .yes
  | .jeq => .conditional
  | .jne => .conditional
  | .add => .no
  | .sub => .no
  | .div => .no

/-- Instruction width: 1 + operand_count bytes (30_encoding.md R80, R91). -/
def Op.width (o : Op) : Nat := 1 + o.operandCount

/-- The default OPCODE_MAP (30_encoding.md R84). PRESUMED: the byte values are general knowledge, adopted by the
spec's decision D2 (log 1, unsafe). -/
def standardOpcode : Op → Byte
  | .hlt => 0x01
  | .ldi => 0x82
  | .prn => 0x47
  | .mul => 0xA2
  | .cmp => 0xA7
  | .push => 0x45
  | .pop => 0x46
  | .call => 0x50
  | .ret => 0x11
  | .jmp => 0x54
  | .jeq => 0x55
  | .jne => 0x56
  | .add => 0xA0
  | .sub => 0xA1
  | .div => 0xA3

/-- The parameters at their defaults (00_scope.md R5): the map of R84, EXT_ALU = true (DESIGN CHOICE, log 2) and
all flags false at reset (DESIGN CHOICE, log 3). -/
def Config.standard : Config where
  opcodeMap := standardOpcode
  extAlu := true
  flagsReset := { equal := false, lessThan := false, greaterThan := false }

/-- The dispatcher: the static table from the whole opcode byte (mask 0xFF) to its row, or nothing
(30_encoding.md R83, R84; 40_control_unit.md R114). -/
def Config.dispatch (cfg : Config) (opcode : Byte) : Option Op :=
  Op.all.find? fun o => cfg.dispatched o && cfg.opcodeMap o == opcode

/-- Why bytes are no instruction. -/
inductive DecodeError where
  /-- The bytes end after `available` of them, before the fetch window is complete (30_encoding.md R82). -/
  | truncated (available : Nat)
  /-- The opcode byte has no row (30_encoding.md R88). -/
  | illegalOpcode (opcode : Byte)
  /-- An operand byte with role `reg` is above 7 (40_control_unit.md R115). -/
  | registerIndex (index : Byte)
  deriving DecidableEq, Repr

/-- A register operand: the whole operand byte as an index, 0..7 (30_encoding.md R86, 40_control_unit.md R115). -/
def regOperand (v : Byte) : Except DecodeError Reg :=
  if h : v.toNat < 8 then .ok ⟨v.toNat, h⟩ else .error (.registerIndex v)

/-- Format `R`: one register operand in opA; opB is ignored (30_encoding.md R81). -/
def formatR (mk : Reg → Instr) (opA : Byte) : Except DecodeError Instr :=
  match regOperand opA with
  | .error e => .error e
  | .ok a => .ok (mk a)

/-- Format `RR`: two register operands, opA checked before opB (30_encoding.md R81, 40_control_unit.md R115). -/
def formatRR (mk : Reg → Reg → Instr) (opA opB : Byte) : Except DecodeError Instr :=
  match regOperand opA with
  | .error e => .error e
  | .ok a =>
    match regOperand opB with
    | .error e => .error e
    | .ok b => .ok (mk a b)

/-- Format `RI`: a register operand in opA and an unchecked immediate byte in opB (30_encoding.md R81, R86). -/
def formatRI (mk : Reg → Byte → Instr) (opA opB : Byte) : Except DecodeError Instr :=
  match regOperand opA with
  | .error e => .error e
  | .ok a => .ok (mk a opB)

/-- The decoder's operand part: the format of each row (30_encoding.md R84, R87). -/
def decodeOperands (o : Op) (opA opB : Byte) : Except DecodeError Instr :=
  match o with
  | .hlt => .ok .hlt
  | .ldi => formatRI .ldi opA opB
  | .prn => formatR .prn opA
  | .mul => formatRR .mul opA opB
  | .cmp => formatRR .cmp opA opB
  | .push => formatR .push opA
  | .pop => formatR .pop opA
  | .call => formatR .call opA
  | .ret => .ok .ret
  | .jmp => formatR .jmp opA
  | .jeq => formatR .jeq opA
  | .jne => formatR .jne opA
  | .add => formatRR .add opA opB
  | .sub => formatRR .sub opA opB
  | .div => formatRR .div opA opB

/-- The decoder on the bytes at an instruction's address: HLT needs its opcode alone (40_control_unit.md R113), every
other opcode the full window of three bytes (R112), then the table lookup (R114), then the register-index check
(R115). Bytes after the third are not looked at. -/
def decode (cfg : Config) : List Byte → Except DecodeError Instr
  | [] => .error (.truncated 0)
  | opcode :: operands =>
    if opcode = cfg.opcodeMap .hlt then .ok .hlt
    else
      match operands with
      | opA :: opB :: _ =>
        match cfg.dispatch opcode with
        | none => .error (.illegalOpcode opcode)
        | some o => decodeOperands o opA opB
      | short => .error (.truncated (1 + short.length))

/-- The operand byte of Rn is n (30_encoding.md R92). -/
def regByte (r : Reg) : Byte := BitVec.ofNat 8 r.val

/-- The operand bytes of an instruction, in address order (30_encoding.md R80, R81). -/
def operandBytes : Instr → List Byte
  | .hlt => []
  | .ldi a imm => [regByte a, imm]
  | .prn a => [regByte a]
  | .mul a b => [regByte a, regByte b]
  | .cmp a b => [regByte a, regByte b]
  | .push a => [regByte a]
  | .pop a => [regByte a]
  | .call a => [regByte a]
  | .ret => []
  | .jmp a => [regByte a]
  | .jeq a => [regByte a]
  | .jne a => [regByte a]
  | .add a b => [regByte a, regByte b]
  | .sub a b => [regByte a, regByte b]
  | .div a b => [regByte a, regByte b]

/-- The encoder: the opcode byte, then the operand bytes (30_encoding.md R80, R81, R84). -/
def encode (cfg : Config) (i : Instr) : List Byte :=
  cfg.opcodeMap i.op :: operandBytes i

/-- The three bytes of the fetch window for the `nbits`-bit number `w` whose bit 0 is the least significant bit of
the first byte: the first byte at the lowest address, every bit from `nbits` up zero (20_memory.md R55). -/
def windowBytes (nbits w : Nat) : List Byte :=
  [BitVec.ofNat 8 (w % 2 ^ nbits), BitVec.ofNat 8 (w % 2 ^ nbits / 256), BitVec.ofNat 8 (w % 2 ^ nbits / 65536)]

/-- The instruction the decoder reads, with the default parameters, from an instruction whose bits are `w`, numbered
as spec/opcode_table.json numbers them. -/
def decodeTableWord (nbits w : Nat) : Option Instr :=
  match decode Config.standard (windowBytes nbits w) with
  | .ok i => some i
  | .error _ => none

end Sys2Proof
end

