-- ==== Sys2Proof/Machine/State.lean ====
section
/-! DEFINITION. The architectural state as plain data, the reasons a step can stop, and the state after reset. -/

namespace Sys2Proof.Machine

/-- Memory: (address, byte) pairs with strictly rising addresses in 0x00..0xFF and no byte equal to 0, which is what
an unlisted address reads as (20_memory.md R50: zero-initialized). -/
abbrev Memory := List Host.Cell

/-- The canonical form for the cells at addresses `lo` and up. -/
def Memory.wfFrom (lo : Nat) : Memory → Bool
  | [] => true
  | (a, v) :: rest => decide (lo ≤ a) && decide (a < memSize) && v != 0#8 && Memory.wfFrom (a + 1) rest

/-- The canonical form of memory. -/
def Memory.wf (m : Memory) : Bool := Memory.wfFrom 0 m

/-- What a rule raises: the fault's kind with the information its record carries (60_exceptions.md R201). The record's
`pc` and `opcode` are the same for every kind and stand in `FaultRecord`. -/
inductive FaultCause where
  /-- OutOfBounds (memory): raised by the fetch unit; `address` is the out-of-range address. -/
  | memory (address : Nat)
  /-- OutOfBounds (register): raised by the decoder; `index` is the operand byte above 7. -/
  | register (index : Byte)
  /-- IllegalInstruction: raised by the dispatcher. -/
  | illegalInstruction
  /-- DivideByZero: raised by the ALU; `divisor` is the register that holds zero. -/
  | divideByZero (divisor : Reg)
  /-- UnsupportedOperation: raised by the ALU for an operator tag that is not one of the five. -/
  | unsupportedOperation
  deriving DecidableEq, Repr

/-- The fault record of 60_exceptions.md R203. Its code, kind, sub_kind, address, index and divisor_register are read
off `cause` (Machine/Faults.lean). -/
structure FaultRecord where
  cause : FaultCause
  /-- The address of the faulting instruction. -/
  pc : Nat
  /-- The opcode byte, if it was fetched. -/
  opcode : Option Byte
  deriving DecidableEq, Repr

/-- The run state (10_state.md R32). -/
inductive RunState where
  | running
  /-- Terminal: HLT was executed. -/
  | halted
  /-- Terminal: a fault ended the run. -/
  | faulted (record : FaultRecord)
  deriving DecidableEq, Repr

/-- The complete state tuple of 10_state.md. -/
structure State where
  /-- R0..R7 (R20); R7 is SP. -/
  regs : Vector Byte 8
  /-- The program counter, a natural number (R26, R27). -/
  pc : Nat
  /-- The flags register (R29). -/
  flags : Flags
  /-- The 256-byte memory (20_memory.md R50). -/
  mem : Memory
  /-- The run state, with the fault record (R32). -/
  run : RunState
  /-- The bytes emitted by PRN, oldest first (R33). -/
  out : List Byte
  deriving DecidableEq, Repr

/-- Why the machine takes no step. The four fault kinds of 60_exceptions.md R200 are not here: their entry is a
described change of state (R203), so a step that raises one answers a next state whose run state is `faulted`. -/
inductive Fault where
  /-- Raised by `step` when the run state is Halted: no step is defined there (40_control_unit.md R120). Safe: the
  hardware does nothing either. -/
  | stepAfterHalt
  /-- Raised by `step` when the run state is Faulted with this record: no step is defined there (40_control_unit.md
  R120, 60_exceptions.md R203). Safe: the hardware does nothing either. -/
  | stepAfterFault (record : FaultRecord)
  deriving DecidableEq, Repr

/-- Instructions without a meaning. -/
inductive Refusal where
  /-- Raised only by an arm of `exec` whose instruction has no meaning yet; no arm does. Safe. -/
  | notModelled (mnemonic : String)
  deriving DecidableEq, Repr

/-- The reset state with an empty program image (70_reset_and_hazards.md R230): R0..R6 zero, SP at SP_RESET, pc at
PC_RESET, the flags at FLAGS_RESET, memory all zero, Running, no output. -/
def State.resetWith (cfg : Config) : State where
  regs := #v[0, 0, 0, 0, 0, 0, 0, spReset]
  pc := pcReset
  flags := cfg.flagsReset
  mem := []
  run := .running
  out := []

/-- The machine right after reset, with the default parameters and no image loaded (70_reset_and_hazards.md R230).
How a program comes to run from here: log 6. -/
def State.reset : State := State.resetWith Config.standard

end Sys2Proof.Machine
end

