-- ==== Sys2Proof/Machine/Flags.lean ====
section
/-! DEFINITION. The one flag computation: CMP's. No other instruction writes a flag (10_state.md R30). -/

namespace Sys2Proof.Machine

/-- The flag triple of CMP, by unsigned comparison (42_alu.md R154): all three are written and exactly one is true. -/
def compareFlags (va vb : Byte) : Flags where
  equal := va.toNat == vb.toNat
  lessThan := decide (va.toNat < vb.toNat)
  greaterThan := decide (va.toNat > vb.toNat)

end Sys2Proof.Machine
end

