-- ==== Sys2Proof/Machine/Ops.lean ====
section
/-! DEFINITION. The named operations over memory, registers and output; fault entry; the PC sequencer. -/

namespace Sys2Proof.Machine

/-! ## Memory -/

/-- The byte a memory holds at an address; an unlisted address holds 0 (20_memory.md R50). -/
def Memory.byteAt : Memory → Nat → Byte
  | [], _ => 0#8
  | (k, w) :: rest, a => if k = a then w else Memory.byteAt rest a

/-- Memory with one byte replaced, in canonical form: a zero byte is not listed. -/
def Memory.put : Memory → Nat → Byte → Memory
  | [], a, v => if v = 0#8 then [] else [(a, v)]
  | (k, w) :: rest, a, v =>
    if k < a then (k, w) :: Memory.put rest a v
    else
      let tail := if k = a then rest else (k, w) :: rest
      if v = 0#8 then tail else (a, v) :: tail

/-- `MemRead(addr, 1)` (20_memory.md R52): the one read access of the hardware. -/
def memRead (m : Memory) (addr : Nat) : Except FaultCause Byte :=
  if addr < memSize then .ok (m.byteAt addr) else .error (.memory addr)

/-- `MemWrite(addr, 1, v)` (20_memory.md R52): the one write access of the hardware. -/
def memWrite (m : Memory) (addr : Nat) (v : Byte) : Except FaultCause Memory :=
  if addr < memSize then .ok (m.put addr v) else .error (.memory addr)

/-! ## The fields of the state -/

/-- `pc <- p` (00_scope.md R7). -/
def State.setPc (s : State) (p : Nat) : State := { s with pc := p }

/-- The flags register written as a whole (10_state.md R30). -/
def State.setFlags (s : State) (f : Flags) : State := { s with flags := f }

/-- Memory replaced by what a write left of it. -/
def State.setMem (s : State) (m : Memory) : State := { s with mem := m }

/-- `run <- x` (40_control_unit.md R119). -/
def State.setRun (s : State) (x : RunState) : State := { s with run := x }


/-- The output list replaced. -/
def State.setOut (s : State) (o : List Byte) : State := { s with out := o }

/-- `x[r]`, the register file's `get` (10_state.md R21). -/
def State.reg (s : State) (r : Reg) : Byte := s.regs[r]

/-- `x[r] <- v`, the register file's `set` (10_state.md R21). -/
def State.setReg (s : State) (r : Reg) (v : Byte) : State :=
  { s with regs := s.regs.set r v }

/-- The value of the stack pointer (00_scope.md R7: SP abbreviates x[7]). -/
def State.spVal (s : State) : Byte := s.reg Reg.sp

/-- `emit(v)`: append a byte to `out` (00_scope.md R7). -/
def State.emit (s : State) (v : Byte) : State := s.setOut (s.out ++ [v])

/-! ## Fault entry -/

/-- The opcode byte of the step: the byte at pc, if pc is an address. Nothing of a step writes memory before its
faults (20_memory.md R63, R65), so at a fault it is still the byte that was fetched (DEDUCED, log 5). -/
def State.fetchedOpcode (s : State) : Option Byte :=
  match memRead s.mem s.pc with
  | .ok v => some v
  | .error _ => none

/-- Taking a fault (60_exceptions.md R203): the run state becomes Faulted with the record, and nothing else changes.
There is no vector, no handler, no saved state elsewhere, and no return from a fault (R205). -/
def State.raise (s : State) (c : FaultCause) : State :=
  s.setRun (.faulted { cause := c, pc := s.pc, opcode := s.fetchedOpcode })

/-! ## The PC sequencer -/

/-- The end of a step whose handler ran from `s` (40_control_unit.md R116, R117). A handler answers the state with its
writes and either a redirect target or none, or it raises a fault. A fault keeps nothing of the handler's writes
(60_exceptions.md R203); a redirect sets pc; otherwise pc advances by 1 + operand_count, without wrap. -/
def complete (o : Op) (s : State) :
    Except FaultCause (State × Option Byte) → Host.Outcome State Fault Refusal
  | .error c => .next (s.raise c)
  | .ok (s', some target) => .next (s'.setPc target.toNat)
  | .ok (s', none) => .next (s'.setPc (s.pc + o.width))

/-! ## Stack primitives -/

/-- `push(v)` (43_stack.md R170): SP is decremented modulo 256, then `v` is written at the new SP. -/
def push (s : State) (v : Byte) : Except FaultCause State :=
  let s' := s.setReg Reg.sp (s.spVal - 1#8)
  match memWrite s'.mem s'.spVal.toNat v with
  | .error c => .error c
  | .ok m => .ok (s'.setMem m)

/-- `pop()` (43_stack.md R171): the byte at SP is read, then SP is incremented modulo 256. -/
def pop (s : State) : Except FaultCause (Byte × State) :=
  match memRead s.mem s.spVal.toNat with
  | .error c => .error c
  | .ok v => .ok (v, s.setReg Reg.sp (s.spVal + 1#8))

end Sys2Proof.Machine
end

