-- ==== Sys2Proof/Machine/Operands.lean ====
section
/-! DEFINITION. Every operand form of the instruction set. Each is read from the state at the start of execute, before
any write of the step (00_scope.md R8; 92_eei_decisions.md D8). -/

namespace Sys2Proof.Machine

/-- A register operand used as a source: `va <- x[a]` (30_encoding.md R86, R87). -/
def srcReg (s : State) (a : Reg) : Byte := s.reg a

/-- The two sources of an `RR` instruction: `va <- x[a]; vb <- x[b]` (30_encoding.md R87, 42_alu.md R150). -/
def srcPair (s : State) (a b : Reg) : Byte × Byte := (s.reg a, s.reg b)

/-- The immediate of LDI: the whole operand byte, without extension (30_encoding.md R86). -/
def immediate (imm : Byte) : Byte := imm

/-- The register-indirect target of CALL, JMP, JEQ and JNE (44_control_flow.md R180). -/
def targetReg (s : State) (a : Reg) : Byte := s.reg a

/-- The return address CALL pushes: the instruction's address plus its width, a single byte
(44_control_flow.md R181). At pc <= 0xFD, where every completing CALL stands, nothing is lost (log 8). -/
def returnAddress (s : State) : Byte := BitVec.ofNat 8 (s.pc + Op.width .call)

end Sys2Proof.Machine
end

