-- ==== Sys2Proof/Machine/Alu.lean ====
section
/-! DEFINITION. The ALU and its instructions: MUL, CMP, ADD, SUB, DIV. -/

namespace Sys2Proof.Machine

/-- The operator tags (42_alu.md R152): the five of the ALU table, and any other value, which the ALU must answer with
UnsupportedOperation. The dispatcher emits only the five. -/
inductive AluTag where
  | mul | cmp | add | sub | div
  /-- A tag that is not one of the five; the spec encodes no tag, so the number only tells such tags apart. -/
  | other (tag : Nat)
  deriving DecidableEq, Repr

/-- The outputs of the ALU (42_alu.md R150). -/
inductive AluOutput where
  /-- A result byte for the destination register. -/
  | result (v : Byte)
  /-- The flag triple of CMP. -/
  | flags (f : Flags)
  /-- The fault signal `div_zero`. -/
  | divZero
  /-- The fault signal `unsupported`. -/
  | unsupported
  deriving DecidableEq, Repr

/-- An exact integer result reduced mod 256 (42_alu.md R151). -/
def wrapByte (v : Int) : Byte := BitVec.ofInt 8 v

/-- The ALU: a function of the tag and the two operand values alone (42_alu.md R150 to R157). -/
def alu (t : AluTag) (va vb : Byte) : AluOutput :=
  match t with
  | .mul => .result (wrapByte ((va.toNat : Int) * vb.toNat))
  | .cmp => .flags (compareFlags va vb)
  | .add => .result (wrapByte ((va.toNat : Int) + vb.toNat))
  | .sub => .result (wrapByte ((va.toNat : Int) - vb.toNat))
  | .div => if vb.toNat = 0 then .divZero else .result (wrapByte ((va.toNat / vb.toNat : Nat) : Int))
  | .other _ => .unsupported

/-- The execute datapath of an ALU instruction (42_alu.md R150): the result goes to `x[a]`, the flag triple to the
flags register, a fault signal raises its fault; no redirect. -/
def execAlu (o : Op) (t : AluTag) (a b : Reg) (s : State) : Host.Outcome State Fault Refusal :=
  let (va, vb) := srcPair s a b
  complete o s <|
    match alu t va vb with
    | .result v => .ok (s.setReg a v, none)
    | .flags f => .ok (s.setFlags f, none)
    | .divZero => .error (.divideByZero b)
    | .unsupported => .error .unsupportedOperation

/-- MUL (42_alu.md R153). -/
def execMul (a b : Reg) (s : State) : Host.Outcome State Fault Refusal := execAlu .mul .mul a b s

/-- CMP (42_alu.md R154). -/
def execCmp (a b : Reg) (s : State) : Host.Outcome State Fault Refusal := execAlu .cmp .cmp a b s

/-- ADD (42_alu.md R155). -/
def execAdd (a b : Reg) (s : State) : Host.Outcome State Fault Refusal := execAlu .add .add a b s

/-- SUB (42_alu.md R156). -/
def execSub (a b : Reg) (s : State) : Host.Outcome State Fault Refusal := execAlu .sub .sub a b s

/-- DIV (42_alu.md R157). -/
def execDiv (a b : Reg) (s : State) : Host.Outcome State Fault Refusal := execAlu .div .div a b s

end Sys2Proof.Machine
end

