-- ==== Sys2Proof/Machine/ControlFlow.lean ====
section
/-! DEFINITION. HLT and the control transfers: CALL, RET, JMP, JEQ, JNE. -/

namespace Sys2Proof.Machine

/-- HLT (40_control_unit.md R121): the run state becomes Halted and pc keeps the address of the HLT byte. -/
def execHlt (s : State) : Host.Outcome State Fault Refusal :=
  .next (s.setRun .halted)

/-- CALL (44_control_flow.md R181): the target is read before SP changes, then the return address is pushed. -/
def execCall (a : Reg) (s : State) : Host.Outcome State Fault Refusal :=
  complete .call s <|
    match push s (returnAddress s) with
    | .error c => .error c
    | .ok s' => .ok (s', some (targetReg s a))

/-- RET (44_control_flow.md R182): the popped byte is the redirect target. -/
def execRet (s : State) : Host.Outcome State Fault Refusal :=
  complete .ret s <|
    match pop s with
    | .error c => .error c
    | .ok (v, s') => .ok (s', some v)

/-- JMP (44_control_flow.md R183). -/
def execJmp (a : Reg) (s : State) : Host.Outcome State Fault Refusal :=
  complete .jmp s (.ok (s, some (targetReg s a)))

/-- JEQ (44_control_flow.md R184): taken when FL.E is set. -/
def execJeq (a : Reg) (s : State) : Host.Outcome State Fault Refusal :=
  complete .jeq s (.ok (s, if s.flags.equal then some (targetReg s a) else none))

/-- JNE (44_control_flow.md R185, 90_conflicts.md C4): taken when FL.E is not set. -/
def execJne (a : Reg) (s : State) : Host.Outcome State Fault Refusal :=
  complete .jne s (.ok (s, if s.flags.equal then none else some (targetReg s a)))

end Sys2Proof.Machine
end

