-- ==== Sys2Proof/Machine/LoadOutput.lean ====
section
/-! DEFINITION. LDI and PRN, and the text line the host renders for a PRN. -/

namespace Sys2Proof.Machine

/-- LDI (41_load_and_output.md R140). -/
def execLdi (a : Reg) (imm : Byte) (s : State) : Host.Outcome State Fault Refusal :=
  complete .ldi s (.ok (s.setReg a (immediate imm), none))

/-- PRN (41_load_and_output.md R141). -/
def execPrn (a : Reg) (s : State) : Host.Outcome State Fault Refusal :=
  complete .prn s (.ok (s.emit (srcReg s a), none))

/-- The text line of one element of `out`: the value in decimal with no leading zeros (41_load_and_output.md R142). -/
def printedLine (v : Byte) : String := "Printing: " ++ Nat.repr v.toNat

/-- The lines the host prints, in the order of `out` (41_load_and_output.md R142). -/
def printedLines (s : State) : List String := s.out.map printedLine

end Sys2Proof.Machine
end

