-- ==== Sys2Proof/Machine/Stack.lean ====
section
/-! DEFINITION. PUSH and POP. -/

namespace Sys2Proof.Machine

/-- PUSH (43_stack.md R172): the source is read before SP changes, so PUSH R7 pushes the old SP. -/
def execPush (a : Reg) (s : State) : Host.Outcome State Fault Refusal :=
  complete .push s <|
    match push s (srcReg s a) with
    | .error c => .error c
    | .ok s' => .ok (s', none)

/-- POP (43_stack.md R173): the destination is written last, so POP R7 leaves the popped byte in R7. -/
def execPop (a : Reg) (s : State) : Host.Outcome State Fault Refusal :=
  complete .pop s <|
    match pop s with
    | .error c => .error c
    | .ok (v, s') => .ok (s'.setReg a v, none)

end Sys2Proof.Machine
end

