-- ==== Sys2Proof/Machine/Fetch.lean ====
section
/-! DEFINITION. The fetch unit, and the faults of fetch and decode in their order. -/

namespace Sys2Proof.Machine

/-- The fetch unit (40_control_unit.md R111 to R113): the opcode byte; then, unless it is HLT's, the two bytes after
it, always both and in this order. -/
def fetch (cfg : Config) (s : State) : Except FaultCause (List Byte) :=
  match memRead s.mem s.pc with
  | .error c => .error c
  | .ok opcode =>
    if opcode = cfg.opcodeMap .hlt then .ok [opcode]
    else
      match memRead s.mem (s.pc + 1) with
      | .error c => .error c
      | .ok opA =>
        match memRead s.mem (s.pc + 2) with
        | .error c => .error c
        | .ok opB => .ok [opcode, opA, opB]

/-- The fault a decode error raises in the step (40_control_unit.md R114, R115). `fetch` never hands the decoder a
truncated window; the total function names the first missing byte's address. -/
def decodeFault (s : State) : DecodeError → FaultCause
  | .truncated available => .memory (s.pc + available)
  | .illegalOpcode _ => .illegalInstruction
  | .registerIndex index => .register index

/-- Fetch, dispatch and register-index check, with the fault each raises (40_control_unit.md R119; priority as in
60_exceptions.md R204). -/
def fetchDecode (cfg : Config) (s : State) : Except FaultCause Instr :=
  match fetch cfg s with
  | .error c => .error c
  | .ok bytes =>
    match decode cfg bytes with
    | .error e => .error (decodeFault s e)
    | .ok i => .ok i

/-- Bytes placed in memory from an address up; a byte that would fall outside memory is not placed. -/
def placeBytes (m : Memory) (addr : Nat) : List Byte → Memory
  | [] => m
  | v :: rest => placeBytes (if addr < memSize then m.put addr v else m) (addr + 1) rest

end Sys2Proof.Machine
end

