-- ==== Sys2Proof/Machine/Step.lean ====
section
/-! DEFINITION. One step of the control unit. -/

namespace Sys2Proof.Machine

/-- One step under the given parameters (40_control_unit.md R119). No step is defined from Halted or Faulted (R120).
A fault of fetch, dispatch or decode is taken as 60_exceptions.md R203 says; otherwise the instruction executes. -/
def stepWith (cfg : Config) (s : State) : Host.Outcome State Fault Refusal :=
  match s.run with
  | .halted => .fault .stepAfterHalt
  | .faulted record => .fault (.stepAfterFault record)
  | .running =>
    match fetchDecode cfg s with
    | .error c => .next (s.raise c)
    | .ok i => exec i s

/-- One step with the default parameters of 00_scope.md R5. -/
def step (s : State) : Host.Outcome State Fault Refusal := stepWith Config.standard s

/-- The state with the instruction whose bits are `w` stored at pc, pc + 1 and pc + 2, where the step fetches; nothing
else changes. -/
def State.withFetchWord (s : State) (nbits w : Nat) : State :=
  s.setMem (placeBytes s.mem s.pc (windowBytes nbits w))

end Sys2Proof.Machine
end

