-- ==== Sys2Proof/Machine/Faults.lean ====
section
/-! DEFINITION. The fields of the fault record that are read off its cause: kind, code, sub_kind, address, index and
divisor_register. -/

namespace Sys2Proof.Machine

/-- The closed taxonomy (60_exceptions.md R200). -/
inductive FaultKind where
  | outOfBounds | illegalInstruction | divideByZero | unsupportedOperation
  deriving DecidableEq, Repr

/-- The `sub_kind` of OutOfBounds (60_exceptions.md R201). -/
inductive FaultSubKind where
  | memory | register
  deriving DecidableEq, Repr

/-- The kind of a raised fault (60_exceptions.md R201). -/
def FaultCause.kind : FaultCause → FaultKind
  | .memory _ => .outOfBounds
  | .register _ => .outOfBounds
  | .illegalInstruction => .illegalInstruction
  | .divideByZero _ => .divideByZero
  | .unsupportedOperation => .unsupportedOperation

/-- `sub_kind` (60_exceptions.md R201): only OutOfBounds has one. -/
def FaultCause.subKind : FaultCause → Option FaultSubKind
  | .memory _ => some .memory
  | .register _ => some .register
  | .illegalInstruction => none
  | .divideByZero _ => none
  | .unsupportedOperation => none

/-- The code of a kind (60_exceptions.md R201; the numbers are the spec's decision D13). -/
def FaultKind.code : FaultKind → Nat
  | .outOfBounds => 1
  | .illegalInstruction => 2
  | .divideByZero => 3
  | .unsupportedOperation => 4

/-- The record's `code`. -/
def FaultRecord.code (r : FaultRecord) : Nat := r.cause.kind.code

/-- The record's `kind`. -/
def FaultRecord.kind (r : FaultRecord) : FaultKind := r.cause.kind

/-- The record's `sub_kind`. -/
def FaultRecord.subKind (r : FaultRecord) : Option FaultSubKind := r.cause.subKind

/-- The record's `address`, present for OutOfBounds (memory). -/
def FaultRecord.address (r : FaultRecord) : Option Nat :=
  match r.cause with
  | .memory a => some a
  | .register _ => none
  | .illegalInstruction => none
  | .divideByZero _ => none
  | .unsupportedOperation => none

/-- The record's `index`, present for OutOfBounds (register). -/
def FaultRecord.index (r : FaultRecord) : Option Byte :=
  match r.cause with
  | .memory _ => none
  | .register i => some i
  | .illegalInstruction => none
  | .divideByZero _ => none
  | .unsupportedOperation => none

/-- The record's `divisor_register`, present for DivideByZero. -/
def FaultRecord.divisorRegister (r : FaultRecord) : Option Reg :=
  match r.cause with
  | .memory _ => none
  | .register _ => none
  | .illegalInstruction => none
  | .divideByZero b => some b
  | .unsupportedOperation => none

end Sys2Proof.Machine
end

