-- ==== Sys2Proof/Machine/Debug.lean ====
section
/-! DEFINITION. What the core hands the host: the termination status and the debug port's dump. -/

namespace Sys2Proof.Machine

/-- The status of a run that has ended (60_exceptions.md R208). -/
inductive Termination where
  /-- Normal termination: HLT was reached. -/
  | success
  /-- A fatal fault, with its record. -/
  | failure (record : FaultRecord)
  deriving DecidableEq, Repr

/-- The status the core presents: nothing while the run goes on (60_exceptions.md R208). -/
def terminationStatus (s : State) : Option Termination :=
  match s.run with
  | .running => none
  | .halted => some .success
  | .faulted record => some (.failure record)

/-- The debug port's state dump (60_exceptions.md R210, 10_state.md R36). -/
structure Dump where
  pc : Nat
  /-- The bytes at pc, pc + 1 and pc + 2; a byte above 0xFF is absent. -/
  window : List (Option Byte)
  /-- R0..R7. -/
  regs : List Byte
  deriving DecidableEq, Repr

/-- A byte as the dump shows it: absent above 0xFF (60_exceptions.md R210). -/
def dumpByte (m : Memory) (addr : Nat) : Option Byte :=
  match memRead m addr with
  | .ok v => some v
  | .error _ => none

/-- The dump: a read of the state that changes nothing and raises nothing (60_exceptions.md R210). -/
def debugDump (s : State) : Dump where
  pc := s.pc
  window := [dumpByte s.mem s.pc, dumpByte s.mem (s.pc + 1), dumpByte s.mem (s.pc + 2)]
  regs := s.regs.toList

end Sys2Proof.Machine
end

