-- ==== Sys2Proof/Machine/Load.lean ====
section
/-! DEFINITION. The loaded state a run starts from: the Loader's contract with the core. -/

namespace Sys2Proof.Machine

/-- Memory holding the given bytes from address `k` up and zero elsewhere, in canonical form (30_encoding.md R97). -/
def Memory.ofImage (k : Nat) : List Nat → Memory
  | [] => []
  | v :: rest =>
    if BitVec.ofNat 8 v = 0#8 then Memory.ofImage (k + 1) rest
    else (k, BitVec.ofNat 8 v) :: Memory.ofImage (k + 1) rest

/-- The reset state with a program image in memory (70_reset_and_hazards.md R230, R231; 30_encoding.md R97). An image
of more than 256 values, or with a value above 255, is refused before reset: no core state exists for it
(30_encoding.md R96). -/
def loadImage (cfg : Config) (img : List Nat) : Option State :=
  if img.length ≤ memSize ∧ img.all (fun v => decide (v ≤ 255)) then
    some ((State.resetWith cfg).setMem (Memory.ofImage 0 img))
  else none

end Sys2Proof.Machine
end

