-- ==== Sys2Proof/Safety.lean ====
section
/-! DEFINITION. What a good state and a safe run are, in the terms the statements use. -/

namespace Sys2Proof.Machine

/-- At most one flag is set: none before the first CMP, exactly one after it (10_state.md R30, R31). -/
def atMostOneFlag (f : Flags) : Bool :=
  !(f.equal && f.lessThan) && !(f.equal && f.greaterThan) && !(f.lessThan && f.greaterThan)

/-- Exactly one flag is set (10_state.md R30). -/
def exactlyOneFlag (f : Flags) : Bool :=
  atMostOneFlag f && (f.equal || f.lessThan || f.greaterThan)

/-- What must be true of a state whose run ended with this cause and opcode (60_exceptions.md R201, R202): a memory
fault reports address 0x100 from a pc of 0xFE or more; a register fault reports an index above 7; an illegal
instruction has no row in the dispatch table; a division fault stands at a dispatched DIV whose divisor register holds
zero; UnsupportedOperation does not happen. -/
def causeExplained (cfg : Config) (s : State) (opcode : Option Byte) : FaultCause → Prop
  | .memory address => address = 0x100 ∧ 0xFE ≤ s.pc
  | .register index => 7 < index.toNat
  | .illegalInstruction => ∃ op, opcode = some op ∧ cfg.dispatch op = none
  | .divideByZero b => cfg.extAlu = true ∧ opcode = some (cfg.opcodeMap .div) ∧ s.reg b = 0#8
  | .unsupportedOperation => False

/-- The invariant of the machine. -/
structure Inv (cfg : Config) (s : State) : Prop where
  /-- Memory is in canonical form, inside 0x00..0xFF. -/
  memWf : s.mem.wf = true
  /-- pc never passes 0x100 (10_state.md R27). -/
  pcLe : s.pc ≤ 0x100
  /-- No two flags are set together (10_state.md R30). -/
  flagsExclusive : atMostOneFlag s.flags = true
  /-- A halted run stands at a HLT byte (40_control_unit.md R121). -/
  haltedAtHlt : s.run = .halted → memRead s.mem s.pc = .ok (cfg.opcodeMap .hlt)
  /-- A faulted run stands at the faulting instruction, and its record says why (60_exceptions.md R203). -/
  faultedRecord : ∀ record, s.run = .faulted record →
    record.pc = s.pc ∧ record.opcode = s.fetchedOpcode ∧ causeExplained cfg s record.opcode record.cause

/-- The run has not ended in a fault. -/
def notFaulted (s : State) : Bool :=
  match s.run with
  | .faulted _ => false
  | .running | .halted => true

/-- The state after at most `k` steps: a run stops where no step is defined (40_control_unit.md R120, R124). -/
def runFor (cfg : Config) : Nat → State → State
  | 0, s => s
  | k + 1, s =>
    match stepWith cfg s with
    | .next t => runFor cfg k t
    | .fault _ => s
    | .refused _ => s

/-- A safe run: it has not faulted within `k` steps. -/
def SafeFor (cfg : Config) (k : Nat) (s : State) : Prop :=
  ∀ j ≤ k, notFaulted (runFor cfg j s) = true

/-- Instructions executed one after another, without fetch: for laws about instruction sequences. -/
def execList : List Instr → State → Host.Outcome State Fault Refusal
  | [], s => .next s
  | i :: rest, s =>
    match exec i s with
    | .next t => execList rest t
    | .fault r => .fault r
    | .refused r => .refused r

/-- An outcome with its next state changed by `f`; a stop stays as it is. -/
def mapNext (f : State → State) : Host.Outcome State Fault Refusal → Host.Outcome State Fault Refusal
  | .next t => .next (f t)
  | .fault r => .fault r
  | .refused r => .refused r

/-! ## Frames -/

/-- Every register outside `written` holds what it held. -/
def KeepsRegs (s t : State) (written : List Reg) : Prop :=
  ∀ r, r ∉ written → t.reg r = s.reg r

/-- Every address outside `stored` reads as before, the addresses outside memory among them. -/
def KeepsMem (s t : State) (stored : List Nat) : Prop :=
  ∀ a, a ∉ stored → memRead t.mem a = memRead s.mem a

end Sys2Proof.Machine
end

