-- ==== Sys2Proof/Certificates/Slice0/Reference.lean ====
section
/-! DEFINITION. What the statements compare the machine with: the whole step as the flat pseudocode of
40_control_unit.md R119 over natural numbers, the operand roles of 30_encoding.md R87, the redirects of
44_control_flow.md, and the abstract stack of 43_stack.md R174. Nothing of the machine's decoder, ALU, stack
primitives, sequencer or handlers is used here. -/

namespace Sys2Proof.Reference

open Sys2Proof.Machine (State FaultSubKind FaultRecord RunState memRead)

/-! ## The flat pseudocode of R119 -/

/-- The fault record with every field written out (60_exceptions.md R203). -/
structure Record where
  code : Nat
  subKind : Option FaultSubKind := none
  pc : Nat
  opcode : Option Nat := none
  address : Option Nat := none
  index : Option Nat := none
  divisorRegister : Option Nat := none

/-- The run state (10_state.md R32). -/
inductive Run where
  | running
  | halted
  | faulted (record : Record)

/-- The state tuple of 10_state.md in the notation of 00_scope.md R7: registers and memory as maps on numbers. -/
structure Flat where
  x : Nat → Nat
  pc : Nat
  e : Bool
  l : Bool
  g : Bool
  mem : Nat → Nat
  run : Run
  out : List Nat

/-- `x[i] <- v`. -/
def Flat.setX (m : Flat) (i v : Nat) : Flat := { m with x := fun j => if j = i then v else m.x j }

/-- `mem[a] <- v`. -/
def Flat.setMem (m : Flat) (a v : Nat) : Flat := { m with mem := fun b => if b = a then v else m.mem b }

/-- `raise`: the run state and nothing else (60_exceptions.md R203). -/
def Flat.raise (m : Flat) (record : Record) : Flat := { m with run := .faulted record }

/-- The register-index check before execute (40_control_unit.md R115): the first operand above 7 is the fault. -/
def Flat.checked (m : Flat) (op : Nat) (regOperands : List Nat) (executed : Flat) : Flat :=
  match regOperands.find? (fun f => decide (7 < f)) with
  | some f => m.raise { code := 1, subKind := some .register, pc := m.pc, opcode := some op, index := some f }
  | none => executed

/-- The step of 40_control_unit.md R119 with the execute rules R140, R141, R153 to R157, R172, R173 and R181 to R185
in its place, each written as its pseudocode stands. -/
def step (cfg : Config) (m : Flat) : Flat :=
  if 0xFF < m.pc then
    m.raise { code := 1, subKind := some .memory, pc := m.pc, address := some m.pc }
  else
    let op := m.mem m.pc
    let code := fun o => (cfg.opcodeMap o).toNat
    if op = code .hlt then { m with run := .halted }
    else if 0xFF < m.pc + 1 then
      m.raise { code := 1, subKind := some .memory, pc := m.pc, opcode := some op, address := some (m.pc + 1) }
    else if 0xFF < m.pc + 2 then
      m.raise { code := 1, subKind := some .memory, pc := m.pc, opcode := some op, address := some (m.pc + 2) }
    else
      let a := m.mem (m.pc + 1)
      let b := m.mem (m.pc + 2)
      let va := m.x a
      let vb := m.x b
      let sp := m.x 7
      if op = code .ldi then m.checked op [a] { m.setX a b with pc := m.pc + 3 }
      else if op = code .prn then m.checked op [a] { m with out := m.out ++ [va], pc := m.pc + 2 }
      else if op = code .mul then m.checked op [a, b] { m.setX a (va * vb % 256) with pc := m.pc + 3 }
      else if op = code .cmp then
        m.checked op [a, b]
          { m with e := va == vb, l := decide (va < vb), g := decide (va > vb), pc := m.pc + 3 }
      else if op = code .push then
        m.checked op [a] { (m.setX 7 ((sp + 255) % 256)).setMem ((sp + 255) % 256) va with pc := m.pc + 2 }
      else if op = code .pop then
        m.checked op [a] { (m.setX 7 ((sp + 1) % 256)).setX a (m.mem sp) with pc := m.pc + 2 }
      else if op = code .call then
        m.checked op [a] { (m.setX 7 ((sp + 255) % 256)).setMem ((sp + 255) % 256) (m.pc + 2) with pc := va }
      else if op = code .ret then { m.setX 7 ((sp + 1) % 256) with pc := m.mem sp }
      else if op = code .jmp then m.checked op [a] { m with pc := va }
      else if op = code .jeq then m.checked op [a] { m with pc := if m.e then va else m.pc + 2 }
      else if op = code .jne then m.checked op [a] { m with pc := if m.e then m.pc + 2 else va }
      else if cfg.extAlu ∧ op = code .add then
        m.checked op [a, b] { m.setX a ((va + vb) % 256) with pc := m.pc + 3 }
      else if cfg.extAlu ∧ op = code .sub then
        m.checked op [a, b] { m.setX a ((va + 256 - vb) % 256) with pc := m.pc + 3 }
      else if cfg.extAlu ∧ op = code .div then
        m.checked op [a, b]
          (if vb = 0 then m.raise { code := 3, pc := m.pc, opcode := some op, divisorRegister := some b }
           else { m.setX a (va / vb) with pc := m.pc + 3 })
      else m.raise { code := 2, pc := m.pc, opcode := some op }

/-- The record of the machine with its fields written out. -/
def viewRecord (r : FaultRecord) : Record where
  code := r.code
  subKind := r.subKind
  pc := r.pc
  opcode := r.opcode.map BitVec.toNat
  address := r.address
  index := r.index.map BitVec.toNat
  divisorRegister := r.divisorRegister.map Fin.val

/-- The run state of the machine as the pseudocode has it. -/
def viewRun : RunState → Run
  | .running => .running
  | .halted => .halted
  | .faulted r => .faulted (viewRecord r)

/-- The machine's state as the pseudocode has it. -/
def view (s : State) : Flat where
  x := fun i => if h : i < 8 then (s.reg ⟨i, h⟩).toNat else 0
  pc := s.pc
  e := s.flags.equal
  l := s.flags.lessThan
  g := s.flags.greaterThan
  mem := fun a => (s.mem.byteAt a).toNat
  run := viewRun s.run
  out := s.out.map BitVec.toNat

/-! ## Tables of the encoding and control-flow files -/

/-- The operand bytes with role `reg`, opA before opB (30_encoding.md R87). -/
def regOperands (o : Op) (opA opB : Byte) : List Byte :=
  match o with
  | .hlt | .ret => []
  | .ldi | .prn | .push | .pop | .call | .jmp | .jeq | .jne => [opA]
  | .mul | .cmp | .add | .sub | .div => [opA, opB]

/-- The first register operand above 7, if there is one (40_control_unit.md R115). -/
def badRegister (o : Op) (opA opB : Byte) : Option Byte :=
  (regOperands o opA opB).find? fun v => decide (7 < v.toNat)

/-- Where an instruction redirects pc, if it does (44_control_flow.md R180 to R185). -/
def redirectTarget (i : Instr) (s : State) : Option Byte :=
  match i with
  | .call a => some (s.reg a)
  | .ret => some (s.mem.byteAt (s.reg 7).toNat)
  | .jmp a => some (s.reg a)
  | .jeq a => if s.flags.equal then some (s.reg a) else none
  | .jne a => if s.flags.equal then none else some (s.reg a)
  | .hlt | .ldi _ _ | .prn _ | .mul _ _ | .cmp _ _ | .push _ | .pop _ | .add _ _ | .sub _ _ | .div _ _ => none

/-- The registers an instruction names, and R7 where PUSH, POP, CALL and RET use it implicitly (10_state.md R22). -/
def touchedRegs (i : Instr) : List Reg :=
  match i with
  | .hlt => []
  | .ldi a _ | .prn a | .jmp a | .jeq a | .jne a => [a]
  | .push a | .pop a | .call a => [a, 7]
  | .ret => [7]
  | .mul a b | .cmp a b | .add a b | .sub a b | .div a b => [a, b]

/-- The byte an instruction appends to `out`, if it does (10_state.md R33, 41_load_and_output.md R141). -/
def emitted (i : Instr) (s : State) : List Byte :=
  match i with
  | .prn a => [s.reg a]
  | .hlt | .ldi _ _ | .mul _ _ | .cmp _ _ | .push _ | .pop _ | .call _ | .ret | .jmp _ | .jeq _ | .jne _
  | .add _ _ | .sub _ _ | .div _ _ => []

/-- The address an instruction stores to, if it does: the byte below SP, modulo 256 (43_stack.md R170). -/
def storeAddress (i : Instr) (s : State) : List Nat :=
  match i with
  | .push _ | .call _ => [(s.spVal - 1#8).toNat]
  | .hlt | .ldi _ _ | .prn _ | .mul _ _ | .cmp _ _ | .pop _ | .ret | .jmp _ | .jeq _ | .jne _
  | .add _ _ | .sub _ _ | .div _ _ => []

/-! ## The abstract stack of R174 -/

/-- A PUSH or a POP. -/
inductive StackOp where
  | push (a : Reg)
  | pop (a : Reg)

/-- The instruction of a stack operation. -/
def StackOp.instr : StackOp → Instr
  | .push a => .push a
  | .pop a => .pop a

/-- The register of a stack operation. -/
def StackOp.reg : StackOp → Reg
  | .push a => a
  | .pop a => a

/-- A stack that is a list, newest value first, beside registers that are a map: PUSH adds at the front, POP takes
from the front. A pop of more than was pushed and a push beyond 256 values give nothing. -/
def stackRun : List StackOp → (Reg → Byte) → List Byte → Option ((Reg → Byte) × List Byte)
  | [], x, st => some (x, st)
  | .push a :: rest, x, st => if st.length < 256 then stackRun rest x (x a :: st) else none
  | .pop _ :: _, _, [] => none
  | .pop a :: rest, x, v :: st => stackRun rest (fun r => if r = a then v else x r) st

end Sys2Proof.Reference
end

