-- ==== Sys2Proof/Certificates/Slice0/Obligations.lean ====
section
/-! DEFINITION. The statements for the provers. Each docstring names the sentences of spec/ it formalises; one that rests
on a choice of the spec's own or of the model's names the decision D or the log entry. -/

open Sys2Proof Sys2Proof.Machine
open Sys2Proof.Reference (regOperands badRegister redirectTarget touchedRegs emitted storeAddress StackOp stackRun)

/-! ## Encoding and decoding -/

/-- Decoding an encoded instruction gives it back: every instruction, every operand, every opcode map, whatever bytes
complete the fetch window (30_encoding.md R80, R81, R86, R90). HLT needs no window (R82). -/
def Obligations.DecodeInvertsEncode : Prop :=
  ∀ (cfg : Config) (i : Instr) (pad : List Byte), cfg.wellFormed = true → i.wellFormed cfg = true →
    (i = .hlt ∨ 3 ≤ (encode cfg i ++ pad).length) → decode cfg (encode cfg i ++ pad) = .ok i

/-- What the decoder accepts is an instruction of the core, and its encoding is the bytes read: no bit of them is
dropped or invented (30_encoding.md R80, R81, R84). -/
def Obligations.EncodeInvertsDecode : Prop :=
  ∀ (cfg : Config) (bytes : List Byte) (i : Instr), decode cfg bytes = .ok i →
    i.wellFormed cfg = true ∧ encode cfg i = bytes.take i.op.width

/-- On a full window the decoder refuses exactly an opcode byte without a row, by IllegalInstruction, and a register
operand above 7, by its index, opA before opB (30_encoding.md R87, R88; 40_control_unit.md R114, R115; the check before
execute and its order are the spec's decision D10, log 12). -/
def Obligations.DecodeRefusesExactly : Prop :=
  ∀ (cfg : Config) (opcode opA opB : Byte) (rest : List Byte) (e : DecodeError), cfg.wellFormed = true →
    opcode ≠ cfg.opcodeMap .hlt →
    (decode cfg (opcode :: opA :: opB :: rest) = .error e ↔
      (e = .illegalOpcode opcode ∧ ∀ o, cfg.dispatched o = true → cfg.opcodeMap o ≠ opcode) ∨
      (∃ o index, cfg.dispatched o = true ∧ cfg.opcodeMap o = opcode ∧ badRegister o opA opB = some index ∧
        e = .registerIndex index))

/-- Words written out from the opcode map of 30_encoding.md R84 decode to the instruction they stand for, one or more
per format. The byte values are PRESUMED (log 1). -/
def Obligations.SpecWordsDecode : Prop :=
  decode Config.standard [0x01] = .ok .hlt ∧
  decode Config.standard [0x82, 0x00, 0x08] = .ok (.ldi 0 8) ∧
  decode Config.standard [0x47, 0x07, 0xFF] = .ok (.prn 7) ∧
  decode Config.standard [0xA7, 0x00, 0x02] = .ok (.cmp 0 2) ∧
  decode Config.standard [0xA3, 0x05, 0x06] = .ok (.div 5 6) ∧
  decode Config.standard [0x45, 0x02, 0x00] = .ok (.push 2) ∧
  decode Config.standard [0x50, 0x01, 0x00] = .ok (.call 1) ∧
  decode Config.standard [0x11, 0x00, 0x00] = .ok .ret ∧
  decode Config.standard [0x00, 0x00, 0x00] = .error (.illegalOpcode 0x00) ∧
  decode Config.standard [0xA2, 0x00, 0xFF] = .error (.registerIndex 0xFF)

/-- The default opcode map as 30_encoding.md R85 and R88 describe it: the bit fields of every row agree with its
metadata, 15 bytes are legal, and 12 when EXT_ALU is false. The byte values are PRESUMED (log 1). -/
def Obligations.OpcodeMapShape : Prop :=
  (∀ o : Op, (standardOpcode o).toNat / 64 = o.operandCount ∧
    ((standardOpcode o).toNat / 32 % 2 = 1 ↔ o ∈ [Op.mul, .cmp, .add, .sub, .div]) ∧
    ((standardOpcode o).toNat / 16 % 2 = 1 ↔ o.setsPc = .yes ∨ o.setsPc = .conditional)) ∧
  (List.range 256).countP (fun n => (Config.standard.dispatch (BitVec.ofNat 8 n)).isSome) = 15 ∧
  (List.range 256).countP (fun n => (Config.dispatch { Config.standard with extAlu := false } (BitVec.ofNat 8 n)).isSome) = 12

/-! ## Memory -/

/-- The memory interface (20_memory.md R52): both operations fail with OutOfBounds(memory, address) outside 0..0xFF,
never clamped or wrapped, and where the fetch meets it the run ends there for good; inside, a write succeeds, is what a
later read of that address returns, and leaves every other address as it was (R54). That a write keeps the canonical
form is the model's: its list form of memory is log 17 (DEDUCED), and R52 says nothing of it. -/
def Obligations.MemoryInterface : Prop :=
  ∀ (m : Memory) (addr : Nat) (v : Byte), m.wf = true →
    (0xFF < addr → memRead m addr = .error (.memory addr) ∧ memWrite m addr v = .error (.memory addr) ∧
      ∀ (cfg : Config) (s : State), s.run = .running → fetch cfg s = .error (.memory addr) →
        ∃ record, record.kind = .outOfBounds ∧ record.subKind = some .memory ∧ record.address = some addr ∧
          ∀ k, runFor cfg (k + 1) s = s.setRun (.faulted record)) ∧
    (addr ≤ 0xFF → (∃ b, memRead m addr = .ok b) ∧
      ∃ m', memWrite m addr v = .ok m' ∧ m'.wf = true ∧ memRead m' addr = .ok v ∧
        ∀ a, a ≠ addr → memRead m' a = memRead m a)

/-- The canonical form is one form: memories that read alike at all 256 addresses are equal data. The list form is the model's
(log 17). -/
def Obligations.MemoryFormIsUnique : Prop :=
  ∀ m m' : Memory, m.wf = true → m'.wf = true → (∀ a ≤ 0xFF, memRead m a = memRead m' a) → m = m'

/-- The layout the Loader produces (30_encoding.md R97): the image from address 0, zero after it, and a pc of 0. -/
def Obligations.LoadedImageLayout : Prop :=
  ∀ (cfg : Config) (img : List Nat), img.length ≤ 256 → (∀ v ∈ img, v ≤ 255) →
    ∃ s, loadImage cfg img = some s ∧ s.pc = 0 ∧
      (∀ (k : Nat) (h : k < img.length), ∃ b, memRead s.mem k = .ok b ∧ b.toNat = img[k]) ∧
      (∀ k, img.length ≤ k → k ≤ 0xFF → memRead s.mem k = .ok 0)

/-- Exactly the images that do not fit are refused before reset (30_encoding.md R96, the spec's decision D25). -/
def Obligations.UnfitImageRefused : Prop :=
  ∀ (cfg : Config) (img : List Nat), loadImage cfg img = none ↔ (256 < img.length ∨ ∃ v ∈ img, 255 < v)

/-! ## Reset and the invariant -/

/-- The reset state (70_reset_and_hazards.md R230; 10_state.md R25, R28, R31): R0..R6 are 0, SP is 0xF4, pc is 0,
memory is all zero, the run is Running, nothing is output. The flags' value is the spec's decision D5 (log 3). -/
def Obligations.ResetValues : Prop :=
  (∀ r : Reg, r ≠ 7 → State.reset.reg r = 0) ∧ State.reset.reg 7 = 0xF4 ∧ State.reset.pc = 0 ∧
  State.reset.flags = { equal := false, lessThan := false, greaterThan := false } ∧
  (∀ a ≤ 0xFF, memRead State.reset.mem a = .ok 0) ∧ State.reset.run = .running ∧ State.reset.out = []

/-- Reset meets the invariant. The flags' reset value is the spec's decision D5 (log 3). -/
def Obligations.ResetMeetsInvariant : Prop :=
  Inv Config.standard State.reset

/-- Every state a run can start from meets the invariant, whatever the image (70_reset_and_hazards.md R230, R231). -/
def Obligations.LoadedStateMeetsInvariant : Prop :=
  ∀ (cfg : Config) (img : List Nat) (s : State), atMostOneFlag cfg.flagsReset = true →
    loadImage cfg img = some s → Inv cfg s

/-- Every step keeps the invariant: memory stays canonical, pc never passes 0x100 (10_state.md R27), no two flags are
set (R30), a halted run stands at a HLT byte (40_control_unit.md R121), and a faulted run's record names the
faulting instruction's address and opcode and a cause that holds there (60_exceptions.md R201 to R203, 20_memory.md
R53); UnsupportedOperation never happens (42_alu.md R152). It rests on the spec's decisions D4 (log 4), D12 (log 13)
and D11, D14 (log 12), on log 17 for the list form of memory, and on log 5 for the record's opcode. -/
def Obligations.StepKeepsInvariant : Prop :=
  (∀ (cfg : Config) (s t : State), Inv cfg s → stepWith cfg s = .next t → Inv cfg t) ∧
  (∀ s t : State, Inv Config.standard s → Sys2Proof.Machine.step s = .next t → Inv Config.standard t)

/-! ## The step -/

/-- A step runs the decoded instruction: HLT from its opcode byte alone, every other instruction from the three bytes
at pc. The step adds nothing around exec; the sequencer's advance is part of exec (40_control_unit.md R116, R119). -/
def Obligations.StepRunsDecodedInstruction : Prop :=
  (∀ (s : State) (opcode opA opB : Byte) (i : Instr), s.run = .running →
    memRead s.mem s.pc = .ok opcode → memRead s.mem (s.pc + 1) = .ok opA → memRead s.mem (s.pc + 2) = .ok opB →
    decode Config.standard [opcode, opA, opB] = .ok i → Sys2Proof.Machine.step s = exec i s) ∧
  (∀ (cfg : Config) (s : State) (opcode opA opB : Byte) (i : Instr), s.run = .running →
    memRead s.mem s.pc = .ok opcode → memRead s.mem (s.pc + 1) = .ok opA → memRead s.mem (s.pc + 2) = .ok opB →
    decode cfg [opcode, opA, opB] = .ok i → stepWith cfg s = exec i s) ∧
  (∀ (cfg : Config) (s : State) (opcode : Byte) (i : Instr), s.run = .running → memRead s.mem s.pc = .ok opcode →
    decode cfg [opcode] = .ok i → stepWith cfg s = exec i s)

/-- A step is defined exactly while the run is Running; from Halted and from Faulted no state changes any more,
however often the host asks (40_control_unit.md R120). -/
def Obligations.StepDefinedExactlyWhileRunning : Prop :=
  ∀ (cfg : Config) (s : State),
    ((∃ t, stepWith cfg s = .next t) ↔ s.run = .running) ∧
    (s.run ≠ .running → ∀ k, runFor cfg k s = s)

/-- A fetched HLT byte halts at once, before the operand fetch and the dispatch, so also at 0xFE and 0xFF
(40_control_unit.md R113). Only the run state changes (R121); that pc keeps the HLT's address is the spec's decision
D12 (log 13, DESIGN CHOICE). -/
def Obligations.HltByteHalts : Prop :=
  ∀ (cfg : Config) (s : State), s.run = .running → memRead s.mem s.pc = .ok (cfg.opcodeMap .hlt) →
    stepWith cfg s = .next (s.setRun .halted)

/-- The faults of the fetch window (40_control_unit.md R111, R112; 60_exceptions.md R204): a pc above 0xFF reports that
address and no opcode; any opcode but HLT's at 0xFE or 0xFF, legal or not (90_conflicts.md C5), reports address
0x100 and its opcode. Nothing but the run state changes. The order of the faults and the record are the spec's decisions
D14 and D15 (log 12). -/
def Obligations.FetchWindowFaults : Prop :=
  ∀ (cfg : Config) (s : State), s.run = .running →
    (0xFF < s.pc → stepWith cfg s = .next (s.setRun (.faulted { cause := .memory s.pc, pc := s.pc, opcode := none }))) ∧
    (∀ opcode, 0xFE ≤ s.pc → memRead s.mem s.pc = .ok opcode → opcode ≠ cfg.opcodeMap .hlt →
      stepWith cfg s = .next (s.setRun (.faulted { cause := .memory 0x100, pc := s.pc, opcode := some opcode })))

/-- An opcode byte without a row, its window inside memory, raises IllegalInstruction with the offending byte and the
pc, code 2 (40_control_unit.md R114; 30_encoding.md R88; code: the spec's decision D13). With EXT_ALU false the bytes
of ADD, SUB and DIV are among them (D3). -/
def Obligations.IllegalOpcodeFaults : Prop :=
  (∀ (cfg : Config) (s : State) (opcode : Byte), s.run = .running → s.pc ≤ 0xFD →
    memRead s.mem s.pc = .ok opcode → (∀ o, cfg.dispatched o = true → cfg.opcodeMap o ≠ opcode) →
    ∃ record, stepWith cfg s = .next (s.setRun (.faulted record)) ∧ record.code = 2 ∧
      record.kind = .illegalInstruction ∧ record.pc = s.pc ∧ record.opcode = some opcode) ∧
  (∀ (cfg : Config) (o : Op), cfg = { Config.standard with extAlu := false } → o ∈ [Op.add, .sub, .div] →
    ∀ p, cfg.dispatched p = true → cfg.opcodeMap p ≠ cfg.opcodeMap o)

/-- A register operand above 7 of a legal instruction raises OutOfBounds(register) with that operand byte, opA before
opB, whatever the operands hold and whether or not a branch would be taken, and changes nothing else
(40_control_unit.md R115; the spec's decisions D10, D11). -/
def Obligations.RegisterIndexFaults : Prop :=
  ∀ (cfg : Config) (s : State) (o : Op) (opA opB index : Byte), cfg.wellFormed = true → s.run = .running →
    cfg.dispatched o = true → memRead s.mem s.pc = .ok (cfg.opcodeMap o) →
    memRead s.mem (s.pc + 1) = .ok opA → memRead s.mem (s.pc + 2) = .ok opB → badRegister o opA opB = some index →
    ∃ record, stepWith cfg s = .next (s.setRun (.faulted record)) ∧ record.code = 1 ∧
      record.subKind = some .register ∧ record.index = some index ∧ record.pc = s.pc ∧
      record.opcode = some (cfg.opcodeMap o)

/-- Fault entry is precise (60_exceptions.md R203; the spec's decisions D11, D14): a step that ends the run in a fault
changes the run state and nothing else, and the record's pc is the faulting instruction's address, which is also the
final pc. -/
def Obligations.FaultEntryIsPrecise : Prop :=
  ∀ (cfg : Config) (s t : State) (record : FaultRecord), s.run = .running → stepWith cfg s = .next t →
    t.run = .faulted record → t = s.setRun (.faulted record) ∧ record.pc = t.pc

/-- How execute ends a run (40_control_unit.md R116, R121; 60_exceptions.md R202): it halts exactly on HLT, faults
exactly on DIV by a zero register, and otherwise goes on running. The status presented follows (R208): success exactly
for HLT, failure with a record exactly when the run is Faulted with that record, and none while the run goes on. -/
def Obligations.ExecuteEndsRunExactly : Prop :=
  ∀ (i : Instr) (s : State), s.run = .running →
    ∃ t, exec i s = .next t ∧
      (t.run = .halted ↔ i = .hlt) ∧
      ((∃ record, t.run = .faulted record) ↔ ∃ a b, i = .div a b ∧ s.reg b = 0) ∧
      (terminationStatus t = some .success ↔ i = .hlt) ∧
      (∀ record, terminationStatus t = some (.failure record) ↔ t.run = .faulted record) ∧
      (terminationStatus t = none ↔ t.run = .running)

/-- The whole step is the flat pseudocode of 40_control_unit.md R119, with the fetch, the HLT test, the lookup, the
register check, the execute rules (41_load_and_output.md R140, R141; 42_alu.md R153 to R157; 43_stack.md R172, R173;
44_control_flow.md R181 to R185) and the sequencer in its order, for every opcode map and both settings of EXT_ALU. The
execute rules and the records rest on the spec's decisions D4, D6, D7 (log 4), D8, D9 (log 11), D10, D11 and D14, D15
(log 12), D12 (log 13), the codes D13 (log 14) and D23 (log 16), all DESIGN CHOICE, and on log 5 (DEDUCED). -/
def Obligations.StepMatchesFlatPseudocode : Prop :=
  ∀ (cfg : Config) (s : State), cfg.wellFormed = true → s.mem.wf = true → s.run = .running →
    ∃ t, stepWith cfg s = .next t ∧ Reference.view t = Reference.step cfg (Reference.view s)

/-- The PC sequencer (40_control_unit.md R117, R118): a handler that redirects sets pc to its target, and otherwise pc
advances by 1 + operand_count, without wrap. `yes` always redirects, `no` never, `conditional` goes on at pc + 2 when
not taken, and a redirect to the instruction's own address is no halt. The targets are those of 44_control_flow.md R181
to R185; that CALL R7 jumps to the old SP is the spec's decision D8 (log 11), and that the advance never wraps is D4
(log 4), both DESIGN CHOICE. -/
def Obligations.PcSequencing : Prop :=
  (∀ (i : Instr) (s t : State), exec i s = .next t → s.run = .running → t.run = .running →
    match redirectTarget i s with
    | some target => t.pc = target.toNat
    | none => t.pc = s.pc + 1 + i.op.operandCount) ∧
  (∀ (i : Instr) (s : State),
    (∀ target, redirectTarget i s = some target → ∃ t, exec i s = .next t ∧ t.pc = target.toNat ∧ t.run = s.run) ∧
    (i.op.setsPc = .yes → (redirectTarget i s).isSome) ∧
    (i.op.setsPc = .no → redirectTarget i s = none) ∧
    (i.op.setsPc = .conditional → redirectTarget i s = none → ∃ t, exec i s = .next t ∧ t.pc = s.pc + 2))

/-! ## Rules over all instructions -/

/-- No instruction reads or writes a register it does not name, except R7 by PUSH, POP, CALL and RET (10_state.md R22):
changing any other register before execute changes that register after it and nothing else. -/
def Obligations.OnlyNamedRegistersMatter : Prop :=
  ∀ (i : Instr) (s : State) (r : Reg) (v : Byte), r ∉ touchedRegs i →
    exec i (s.setReg r v) = mapNext (fun t => t.setReg r v) (exec i s)

/-- The flags (10_state.md R30; 90_conflicts.md C2, C4): only CMP writes them, after it exactly one is set; JEQ and JNE
read FL.E; no instruction reads FL.L or FL.G, and the debug port does not show the flags. -/
def Obligations.FlagsWrittenByCmpReadByBranches : Prop :=
  (∀ (i : Instr) (s t : State), (∀ a b, i ≠ .cmp a b) → exec i s = .next t → t.flags = s.flags) ∧
  (∀ (a b : Reg) (s : State), ∃ t, exec (.cmp a b) s = .next t ∧ exactlyOneFlag t.flags = true) ∧
  (∀ (a : Reg) (s : State), ∃ t u, exec (.jeq a) s = .next t ∧ exec (.jne a) s = .next u ∧
    t.pc = (if s.flags.equal then (s.reg a).toNat else s.pc + 2) ∧
    u.pc = (if s.flags.equal then s.pc + 2 else (s.reg a).toNat)) ∧
  (∀ (i : Instr) (s : State) (l g : Bool), (∀ a b, i ≠ .cmp a b) →
    exec i (s.setFlags { s.flags with lessThan := l, greaterThan := g }) =
      mapNext (fun t => t.setFlags { t.flags with lessThan := l, greaterThan := g }) (exec i s)) ∧
  (∀ (a b : Reg) (s : State) (f : Flags), exec (.cmp a b) (s.setFlags f) = exec (.cmp a b) s) ∧
  (∀ (s : State) (f : Flags), debugDump (s.setFlags f) = debugDump s)

/-- The output is write-only and grows by one byte per PRN, in order of execution (10_state.md R33, 41_load_and_output.md
R141; the spec's decision D23): earlier output changes nothing in a step, and no other instruction emits. -/
def Obligations.OutputIsWriteOnly : Prop :=
  (∀ (cfg : Config) (s : State) (earlier : List Byte),
    stepWith cfg (s.setOut (earlier ++ s.out)) =
      mapNext (fun t => t.setOut (earlier ++ t.out)) (stepWith cfg s)) ∧
  (∀ (i : Instr) (s t : State), exec i s = .next t → t.out = s.out ++ emitted i s)

/-- Only PUSH and CALL write memory (20_memory.md R51, R54, R65), and only the byte at the new SP, which is SP - 1 modulo
256 (43_stack.md R170); the wrap at SP = 0 is the spec's decision D7 (log 4, DESIGN CHOICE). -/
def Obligations.OnlyPushAndCallStore : Prop :=
  ∀ (i : Instr) (s t : State), s.mem.wf = true → exec i s = .next t → KeepsMem s t (storeAddress i s)

/-! ## The instructions, each with its frame -/

/-- HLT completes in every state: the run state becomes Halted and nothing else changes (40_control_unit.md R121; that
pc keeps the HLT's address is the spec's decision D12). -/
def Obligations.HltHalts : Prop :=
  ∀ s : State, ∃ t, exec .hlt s = .next t ∧ t.run = .halted ∧ t.pc = s.pc ∧ KeepsRegs s t [] ∧ t.flags = s.flags ∧
    KeepsMem s t [] ∧ t.out = s.out

/-- LDI completes in every state: the destination holds the immediate byte, pc advances by 3, nothing else changes
(41_load_and_output.md R140). R7 is a destination like any other (10_state.md R23, decision D28). -/
def Obligations.LdiLoadsImmediate : Prop :=
  ∀ (a : Reg) (imm : Byte) (s : State), ∃ t, exec (.ldi a imm) s = .next t ∧ t.reg a = imm ∧ KeepsRegs s t [a] ∧
    t.pc = s.pc + 3 ∧ t.flags = s.flags ∧ KeepsMem s t [] ∧ t.run = s.run ∧ t.out = s.out

/-- PRN completes in every state: the register's byte is appended to the output, pc advances by 2, nothing else changes
(41_load_and_output.md R141, decision D23). -/
def Obligations.PrnEmitsRegister : Prop :=
  ∀ (a : Reg) (s : State), ∃ t, exec (.prn a) s = .next t ∧ t.out = s.out ++ [s.reg a] ∧ KeepsRegs s t [] ∧
    t.pc = s.pc + 2 ∧ t.flags = s.flags ∧ KeepsMem s t [] ∧ t.run = s.run

/-- MUL, ADD and SUB complete in every state: the destination holds the exact result modulo 256 of the two source values
read before the write, pc advances by 3, no flag and nothing else changes (42_alu.md R151, R153, R155, R156). -/
def Obligations.MulAddSubWrap : Prop :=
  ∀ (a b : Reg) (s : State) (i : Instr) (result : Nat),
    (i = .mul a b ∧ result = (s.reg a).toNat * (s.reg b).toNat % 256 ∨
     i = .add a b ∧ result = ((s.reg a).toNat + (s.reg b).toNat) % 256 ∨
     i = .sub a b ∧ result = ((s.reg a).toNat + 256 - (s.reg b).toNat) % 256) →
    ∃ t, exec i s = .next t ∧ (t.reg a).toNat = result ∧ KeepsRegs s t [a] ∧ t.pc = s.pc + 3 ∧ t.flags = s.flags ∧
      KeepsMem s t [] ∧ t.run = s.run ∧ t.out = s.out

/-- CMP completes in every state: FL.E, FL.L and FL.G are the unsigned comparison of the two registers, pc advances by
3, no register and nothing else changes (42_alu.md R154, decision D6). -/
def Obligations.CmpComparesUnsigned : Prop :=
  ∀ (a b : Reg) (s : State), ∃ t, exec (.cmp a b) s = .next t ∧
    (t.flags.equal = true ↔ (s.reg a).toNat = (s.reg b).toNat) ∧
    (t.flags.lessThan = true ↔ (s.reg a).toNat < (s.reg b).toNat) ∧
    (t.flags.greaterThan = true ↔ (s.reg b).toNat < (s.reg a).toNat) ∧
    KeepsRegs s t [] ∧ t.pc = s.pc + 3 ∧ KeepsMem s t [] ∧ t.run = s.run ∧ t.out = s.out

/-- DIV completes whenever the divisor register is not zero: the destination holds the unsigned quotient, pc advances by
3, nothing else changes (42_alu.md R157). -/
def Obligations.DivQuotient : Prop :=
  ∀ (a b : Reg) (s : State), s.reg b ≠ 0 → ∃ t, exec (.div a b) s = .next t ∧
    (t.reg a).toNat = (s.reg a).toNat / (s.reg b).toNat ∧ KeepsRegs s t [a] ∧ t.pc = s.pc + 3 ∧ t.flags = s.flags ∧
    KeepsMem s t [] ∧ t.run = s.run ∧ t.out = s.out

/-- DIV by a zero register takes DivideByZero (42_alu.md R157, 60_exceptions.md R203; code 3 is decision D13): the
record names the divisor register and the pc, and no register, flag, memory byte, output or pc changes. R157's record
has the fetched opcode; here it is the byte at pc, whatever byte that is, which in a step is the fetched one (log 5,
DEDUCED). -/
def Obligations.DivByZeroFaults : Prop :=
  ∀ (a b : Reg) (s : State) (opcode : Byte), s.reg b = 0 → memRead s.mem s.pc = .ok opcode →
    ∃ t record, exec (.div a b) s = .next t ∧ t.run = .faulted record ∧ record.code = 3 ∧
      record.kind = .divideByZero ∧ record.divisorRegister = some b ∧ record.pc = s.pc ∧
      record.opcode = some opcode ∧ KeepsRegs s t [] ∧ t.pc = s.pc ∧ t.flags = s.flags ∧ KeepsMem s t [] ∧
      t.out = s.out

/-- PUSH completes in every state: SP goes down by one modulo 256, the register's value from before is stored at the new
SP, pc advances by 2, no other byte, register or flag changes (43_stack.md R170, R172). PUSH R7 stores the old SP
(decision D8); the wrap at SP = 0 is decision D7. -/
def Obligations.PushStoresBelowSp : Prop :=
  ∀ (a : Reg) (s : State), s.mem.wf = true → ∃ t, exec (.push a) s = .next t ∧
    (t.reg 7).toNat = ((s.reg 7).toNat + 255) % 256 ∧
    memRead t.mem (s.spVal - 1#8).toNat = .ok (s.reg a) ∧ KeepsMem s t [(s.spVal - 1#8).toNat] ∧
    KeepsRegs s t [7] ∧ t.pc = s.pc + 2 ∧ t.flags = s.flags ∧ t.run = s.run ∧ t.out = s.out

/-- POP completes in every state: the destination holds the byte at SP, SP goes up by one modulo 256 unless it is the
destination, pc advances by 2, no memory byte, other register or flag changes (43_stack.md R171, R173). POP R7 leaves
the popped byte (decision D9); the wrap at SP = 0xFF is decision D7. -/
def Obligations.PopLoadsFromSp : Prop :=
  ∀ (a : Reg) (s : State), ∃ t, exec (.pop a) s = .next t ∧
    memRead s.mem (s.reg 7).toNat = .ok (t.reg a) ∧
    (a ≠ 7 → (t.reg 7).toNat = ((s.reg 7).toNat + 1) % 256) ∧
    KeepsRegs s t [a, 7] ∧ t.pc = s.pc + 2 ∧ t.flags = s.flags ∧ KeepsMem s t [] ∧ t.run = s.run ∧ t.out = s.out

/-- CALL completes in every state: pc becomes the register's value from before, SP goes down by one modulo 256, and the
return address is stored at the new SP; where a CALL can be fetched it is pc + 2; nothing else changes
(44_control_flow.md R180, R181). CALL R7 jumps to the old SP (decision D8); the wrap at SP = 0 is decision D7. -/
def Obligations.CallPushesReturnAddress : Prop :=
  ∀ (a : Reg) (s : State), s.mem.wf = true → ∃ t ret, exec (.call a) s = .next t ∧
    t.pc = (s.reg a).toNat ∧ (t.reg 7).toNat = ((s.reg 7).toNat + 255) % 256 ∧
    memRead t.mem (s.spVal - 1#8).toNat = .ok ret ∧ (s.pc ≤ 0xFD → ret.toNat = s.pc + 2) ∧
    KeepsMem s t [(s.spVal - 1#8).toNat] ∧ KeepsRegs s t [7] ∧ t.flags = s.flags ∧ t.run = s.run ∧ t.out = s.out

/-- RET completes in every state: pc becomes the byte at SP, SP goes up by one modulo 256, nothing else changes
(43_stack.md R171, 44_control_flow.md R182); the wrap at SP = 0xFF is decision D7. -/
def Obligations.RetPopsPc : Prop :=
  ∀ s : State, ∃ t target, exec .ret s = .next t ∧ memRead s.mem (s.reg 7).toNat = .ok target ∧ t.pc = target.toNat ∧
    (t.reg 7).toNat = ((s.reg 7).toNat + 1) % 256 ∧ KeepsRegs s t [7] ∧ t.flags = s.flags ∧ KeepsMem s t [] ∧
    t.run = s.run ∧ t.out = s.out

/-- JMP, JEQ and JNE complete in every state: pc becomes the register's value where the jump is taken (always; FL.E set;
FL.E not set) and pc + 2 where it is not; nothing else changes (44_control_flow.md R183 to R185, 90_conflicts.md C4). -/
def Obligations.JumpsSetOnlyPc : Prop :=
  ∀ (a : Reg) (s : State) (i : Instr) (taken : Bool),
    (i = .jmp a ∧ taken = true ∨ i = .jeq a ∧ taken = s.flags.equal ∨ i = .jne a ∧ taken = !s.flags.equal) →
    ∃ t, exec i s = .next t ∧ t.pc = (if taken then (s.reg a).toNat else s.pc + 2) ∧ KeepsRegs s t [] ∧
      t.flags = s.flags ∧ KeepsMem s t [] ∧ t.run = s.run ∧ t.out = s.out

/-- An operator tag that is not one of the five raises UnsupportedOperation, code 4, and changes nothing else
(42_alu.md R152, 60_exceptions.md R200, R201; codes: decision D13). The value of such a tag is the model's (log 7). -/
def Obligations.UnknownAluTagFaults : Prop :=
  ∀ (o : Op) (tag : Nat) (a b : Reg) (s : State), ∃ record,
    execAlu o (.other tag) a b s = .next (s.setRun (.faulted record)) ∧ record.code = 4 ∧
      record.kind = .unsupportedOperation ∧ record.pc = s.pc

/-! ## Laws over instruction sequences, and the host's view -/

/-- The stack law (43_stack.md R174, derived there from R170 to R173): for any sequence of PUSH and POP on registers
other than R7 that never pops more than it has pushed and never stands above 256 values deep, POP returns values in
reverse order of PUSH, the values still pushed stand in memory from SP up, newest first, and SP is below its first value
by their number, so it is back at that value after as many pops as pushes. That SP counts modulo 256, on which the depth
of 256 rests, is the spec's decision D7 (log 4, DESIGN CHOICE). -/
def Obligations.StackIsLifo : Prop :=
  ∀ (ops : List StackOp) (s : State) (x : Reg → Byte) (st : List Byte), s.mem.wf = true →
    (∀ o ∈ ops, o.reg ≠ 7) → stackRun ops s.reg [] = some (x, st) →
    ∃ t, execList (ops.map StackOp.instr) s = .next t ∧ (∀ r, r ≠ 7 → t.reg r = x r) ∧
      t.spVal = s.spVal - BitVec.ofNat 8 st.length ∧
      ∀ (k : Nat) (h : k < st.length), memRead t.mem (t.spVal + BitVec.ofNat 8 k).toNat = .ok st[k]

/-- The CALL/RET law (44_control_flow.md R188, derived there): after a CALL that could be fetched, a subroutine that
leaves SP as it found it and does not overwrite the return-address byte ends with a RET that resumes at the instruction
after the CALL, with SP as before the pair. SP counts modulo 256 (decision D7). -/
def Obligations.CallThenRetResumes : Prop :=
  ∀ (a : Reg) (s t u : State), s.mem.wf = true → s.pc ≤ 0xFD → exec (.call a) s = .next t → u.spVal = t.spVal →
    memRead u.mem u.spVal.toNat = memRead t.mem t.spVal.toNat →
    ∃ w, exec .ret u = .next w ∧ w.pc = s.pc + 1 + Op.operandCount .call ∧ w.spVal = s.spVal

/-- The byte a PUSH or a CALL stores is what the next fetch reads, at whichever position of its window it lies
(20_memory.md R63 and 70_reset_and_hazards.md R236, derived there; the spec's decision D20, log 18): in a whole window
the byte stands at its position and the step executes what the window decodes to; as the opcode byte it halts the run if
it is HLT's, and otherwise at 0xFE and 0xFF it is the opcode that the fetch's fault reports. PUSH stores the register's
value from before and CALL its return address, modulo 256 where no CALL can be fetched (log 8); the address stored to
wraps at SP = 0 (D7, log 4), and the value of PUSH R7 and the target of CALL R7 are D8's (log 11). -/
def Obligations.StoredByteIsFetchedNext : Prop :=
  ∀ (cfg : Config) (i : Instr) (a : Reg) (s : State) (stored : Byte), s.mem.wf = true → s.run = .running →
    (i = .push a ∧ stored = s.reg a ∨ i = .call a ∧ stored.toNat = (s.pc + 2) % 256) →
    ∃ t, exec i s = .next t ∧ ∀ k < 3, t.pc + k = (s.spVal - 1#8).toNat →
      (t.pc ≤ 0xFD → memRead t.mem t.pc ≠ .ok (cfg.opcodeMap .hlt) →
        ∃ window, fetch cfg t = .ok window ∧ window.length = 3 ∧ window[k]? = some stored ∧
          ∀ next, decode cfg window = .ok next → stepWith cfg t = exec next t) ∧
      (k = 0 → stored = cfg.opcodeMap .hlt → stepWith cfg t = .next (t.setRun .halted)) ∧
      (k = 0 → 0xFE ≤ t.pc → stored ≠ cfg.opcodeMap .hlt →
        stepWith cfg t =
          .next (t.setRun (.faulted { cause := .memory 0x100, pc := t.pc, opcode := some stored })))

/-- A JMP to itself never ends the run: the core stops no such run by itself, and it is safe at every length
(40_control_unit.md R118, 70_reset_and_hazards.md R239). -/
def Obligations.JumpToItselfNeverEnds : Prop :=
  ∀ (cfg : Config) (a : Reg) (s : State), cfg.wellFormed = true → s.run = .running → s.pc ≤ 0xFD →
    memRead s.mem s.pc = .ok (cfg.opcodeMap .jmp) → memRead s.mem (s.pc + 1) = .ok (regByte a) →
    (s.reg a).toNat = s.pc → ∀ k, runFor cfg k s = s ∧ SafeFor cfg k s

/-- The debug port (60_exceptions.md R210, 10_state.md R36; decision D24): the dump has pc, the bytes at pc, pc + 1 and
pc + 2, absent above 0xFF, and the eight registers, and it depends on nothing else of the state. -/
def Obligations.DebugDumpShows : Prop :=
  (∀ s : State, (debugDump s).pc = s.pc ∧ (debugDump s).regs.length = 8 ∧
    (∀ r : Reg, (debugDump s).regs[r.val]? = some (s.reg r)) ∧ (debugDump s).window.length = 3 ∧
    (∀ k < 3, ∀ v, memRead s.mem (s.pc + k) = .ok v → (debugDump s).window[k]? = some (some v)) ∧
    (∀ k < 3, 0xFF < s.pc + k → (debugDump s).window[k]? = some none)) ∧
  (∀ s t : State, (∀ r, s.reg r = t.reg r) → s.pc = t.pc →
    (∀ k < 3, memRead s.mem (s.pc + k) = memRead t.mem (s.pc + k)) → debugDump s = debugDump t)
end

