-- ==== Sys2Proof/Laws/Decode.lean ====
section
/-! SUPPORT. What the dispatcher and the decoder's parts can do, said once. -/

namespace Sys2Proof

theorem mem_all (o : Op) : o ∈ Op.all := by cases o <;> decide

/-- A row found by the dispatcher is in the table and has the opcode byte looked up. -/
theorem dispatch_some {cfg : Config} {opcode : Byte} {o : Op} (h : cfg.dispatch opcode = some o) :
    cfg.dispatched o = true ∧ cfg.opcodeMap o = opcode := by
  have := List.find?_some h
  simpa using this

/-- An opcode without a row is the opcode byte of no dispatched mnemonic. -/
theorem dispatch_none {cfg : Config} {opcode : Byte} :
    cfg.dispatch opcode = none ↔ ∀ o, cfg.dispatched o = true → cfg.opcodeMap o ≠ opcode := by
  simp [Config.dispatch, List.find?_eq_none, mem_all]

/-- A well-formed map gives each opcode byte at most one dispatched mnemonic. -/
theorem opcodeMap_inj {cfg : Config} (hw : cfg.wellFormed = true) {p q : Op} (hp : cfg.dispatched p = true)
    (hq : cfg.dispatched q = true) (h : cfg.opcodeMap p = cfg.opcodeMap q) : p = q := by
  simp only [Config.wellFormed, List.all_eq_true, List.mem_filter, mem_all, true_and] at hw
  simpa [h] using hw p hp q hq

/-- Under a well-formed map the dispatcher finds every dispatched mnemonic at its own opcode byte. -/
theorem dispatch_opcodeMap {cfg : Config} (hw : cfg.wellFormed = true) {o : Op} (ho : cfg.dispatched o = true) :
    cfg.dispatch (cfg.opcodeMap o) = some o := by
  cases h : cfg.dispatch (cfg.opcodeMap o) with
  | none => exact absurd rfl (dispatch_none.1 h o ho)
  | some p =>
    obtain ⟨hp, he⟩ := dispatch_some h
    rw [opcodeMap_inj hw hp ho he]

/-- A register operand in range. -/
theorem regOperand_of_lt {v : Byte} (h : v.toNat < 8) : regOperand v = .ok ⟨v.toNat, h⟩ := by
  simp [regOperand, h]

/-- A register operand out of range. -/
theorem regOperand_of_le {v : Byte} (h : 8 ≤ v.toNat) : regOperand v = .error (.registerIndex v) := by
  simp [regOperand, Nat.not_lt.2 h]

/-- The operand byte of a register reads back as that register. -/
@[simp] theorem regOperand_regByte (r : Reg) : regOperand (regByte r) = .ok r := by
  revert r; decide

/-- A register operand read from a byte encodes to that byte. -/
theorem regByte_of_regOperand {v : Byte} {r : Reg} (h : regOperand v = .ok r) : regByte r = v := by
  by_cases hv : v.toNat < 8
  · rw [regOperand_of_lt hv] at h
    cases h
    simp [regByte]
  · rw [regOperand_of_le (Nat.not_lt.1 hv)] at h
    cases h

/-- The operand bytes number `operand_count`. -/
theorem operandBytes_length (i : Instr) : (operandBytes i).length = i.op.operandCount := by
  cases i <;> rfl

/-- The default opcode map is well formed. -/
theorem standard_wellFormed : Config.standard.wellFormed = true := by decide

end Sys2Proof
end

