-- ==== Sys2Proof/Laws/State.lean ====
section
/-! SUPPORT. What each update of the state does to each field: no later proof unfolds a record update. -/

namespace Sys2Proof.Machine

variable (s : State) (r q : Reg) (v : Byte) (c : FaultCause)

/-! ## `setReg` -/

@[simp] theorem reg_setReg : (s.setReg r v).reg q = if r = q then v else s.reg q := by
  simp [State.setReg, State.reg, Vector.getElem_set, Fin.ext_iff]

theorem reg_setReg_self : (s.setReg r v).reg r = v := by simp

theorem reg_setReg_of_ne (h : r ≠ q) : (s.setReg r v).reg q = s.reg q := by simp [h]

@[simp] theorem pc_setReg : (s.setReg r v).pc = s.pc := rfl
@[simp] theorem flags_setReg : (s.setReg r v).flags = s.flags := rfl
@[simp] theorem mem_setReg : (s.setReg r v).mem = s.mem := rfl
@[simp] theorem run_setReg : (s.setReg r v).run = s.run := rfl
@[simp] theorem out_setReg : (s.setReg r v).out = s.out := rfl

/-! ## `emit` -/

@[simp] theorem regs_emit : (s.emit v).regs = s.regs := rfl
@[simp] theorem reg_emit : (s.emit v).reg q = s.reg q := rfl
@[simp] theorem pc_emit : (s.emit v).pc = s.pc := rfl
@[simp] theorem flags_emit : (s.emit v).flags = s.flags := rfl
@[simp] theorem mem_emit : (s.emit v).mem = s.mem := rfl
@[simp] theorem run_emit : (s.emit v).run = s.run := rfl
@[simp] theorem out_emit : (s.emit v).out = s.out ++ [v] := rfl

/-! ## `raise` -/

@[simp] theorem regs_raise : (s.raise c).regs = s.regs := rfl
@[simp] theorem reg_raise : (s.raise c).reg q = s.reg q := rfl
@[simp] theorem pc_raise : (s.raise c).pc = s.pc := rfl
@[simp] theorem flags_raise : (s.raise c).flags = s.flags := rfl
@[simp] theorem mem_raise : (s.raise c).mem = s.mem := rfl
@[simp] theorem out_raise : (s.raise c).out = s.out := rfl
@[simp] theorem run_raise :
    (s.raise c).run = .faulted { cause := c, pc := s.pc, opcode := s.fetchedOpcode } := rfl
@[simp] theorem fetchedOpcode_raise : (s.raise c).fetchedOpcode = s.fetchedOpcode := rfl

/-! ## `setPc` -/

@[simp] theorem pc_setPc (p : Nat) : (s.setPc p).pc = p := rfl
@[simp] theorem flags_setPc (p : Nat) : (s.setPc p).flags = s.flags := rfl
@[simp] theorem mem_setPc (p : Nat) : (s.setPc p).mem = s.mem := rfl
@[simp] theorem run_setPc (p : Nat) : (s.setPc p).run = s.run := rfl
@[simp] theorem out_setPc (p : Nat) : (s.setPc p).out = s.out := rfl
@[simp] theorem reg_setPc (p : Nat) : (s.setPc p).reg q = s.reg q := rfl
@[simp] theorem spVal_setPc (p : Nat) : (s.setPc p).spVal = s.spVal := rfl

/-! ## `setFlags` -/

@[simp] theorem pc_setFlags (f : Flags) : (s.setFlags f).pc = s.pc := rfl
@[simp] theorem flags_setFlags (f : Flags) : (s.setFlags f).flags = f := rfl
@[simp] theorem mem_setFlags (f : Flags) : (s.setFlags f).mem = s.mem := rfl
@[simp] theorem run_setFlags (f : Flags) : (s.setFlags f).run = s.run := rfl
@[simp] theorem out_setFlags (f : Flags) : (s.setFlags f).out = s.out := rfl
@[simp] theorem reg_setFlags (f : Flags) : (s.setFlags f).reg q = s.reg q := rfl
@[simp] theorem spVal_setFlags (f : Flags) : (s.setFlags f).spVal = s.spVal := rfl

/-! ## `setMem` -/

@[simp] theorem pc_setMem (m : Memory) : (s.setMem m).pc = s.pc := rfl
@[simp] theorem flags_setMem (m : Memory) : (s.setMem m).flags = s.flags := rfl
@[simp] theorem mem_setMem (m : Memory) : (s.setMem m).mem = m := rfl
@[simp] theorem run_setMem (m : Memory) : (s.setMem m).run = s.run := rfl
@[simp] theorem out_setMem (m : Memory) : (s.setMem m).out = s.out := rfl
@[simp] theorem reg_setMem (m : Memory) : (s.setMem m).reg q = s.reg q := rfl
@[simp] theorem spVal_setMem (m : Memory) : (s.setMem m).spVal = s.spVal := rfl

/-! ## `setRun` -/

@[simp] theorem pc_setRun (x : RunState) : (s.setRun x).pc = s.pc := rfl
@[simp] theorem flags_setRun (x : RunState) : (s.setRun x).flags = s.flags := rfl
@[simp] theorem mem_setRun (x : RunState) : (s.setRun x).mem = s.mem := rfl
@[simp] theorem run_setRun (x : RunState) : (s.setRun x).run = x := rfl
@[simp] theorem out_setRun (x : RunState) : (s.setRun x).out = s.out := rfl
@[simp] theorem reg_setRun (x : RunState) : (s.setRun x).reg q = s.reg q := rfl
@[simp] theorem spVal_setRun (x : RunState) : (s.setRun x).spVal = s.spVal := rfl

/-! ## `setOut` -/

@[simp] theorem pc_setOut (o : List Byte) : (s.setOut o).pc = s.pc := rfl
@[simp] theorem flags_setOut (o : List Byte) : (s.setOut o).flags = s.flags := rfl
@[simp] theorem mem_setOut (o : List Byte) : (s.setOut o).mem = s.mem := rfl
@[simp] theorem run_setOut (o : List Byte) : (s.setOut o).run = s.run := rfl
@[simp] theorem out_setOut (o : List Byte) : (s.setOut o).out = o := rfl
@[simp] theorem reg_setOut (o : List Byte) : (s.setOut o).reg q = s.reg q := rfl
@[simp] theorem spVal_setOut (o : List Byte) : (s.setOut o).spVal = s.spVal := rfl

/-! ## SP and whole states -/

/-- SP is register 7 (00_scope.md R7). -/
theorem spVal_eq : s.spVal = s.reg Reg.sp := rfl

@[simp] theorem spVal_setReg : (s.setReg r v).spVal = if r = Reg.sp then v else s.spVal := by
  simp [State.spVal]

@[simp] theorem spVal_emit : (s.emit v).spVal = s.spVal := rfl
@[simp] theorem spVal_raise : (s.raise c).spVal = s.spVal := rfl

/-- Two states with the same registers and the same other fields are one state. -/
theorem state_ext {s t : State} (hr : ∀ r, s.reg r = t.reg r) (hpc : s.pc = t.pc) (hf : s.flags = t.flags)
    (hm : s.mem = t.mem) (hrun : s.run = t.run) (ho : s.out = t.out) : s = t := by
  obtain ⟨sr, sp, sf, sm, sx, so⟩ := s
  obtain ⟨tr, tp, tf, tm, tx, tq⟩ := t
  have hregs : sr = tr := Vector.ext fun i hi => hr ⟨i, hi⟩
  simp_all

/-- Writing back the byte a register holds changes nothing. -/
theorem setReg_same : s.setReg r (s.reg r) = s :=
  state_ext (fun q => by by_cases h : r = q <;> simp [h]) rfl rfl rfl rfl rfl

end Sys2Proof.Machine
end

