-- ==== Sys2Proof/Laws/Memory.lean ====
section
/-! SUPPORT. The laws of memory: read after write, and every memory operation keeps the canonical form. -/

namespace Sys2Proof.Machine

/-! ## The canonical form -/

/-- What it means that a nonempty list is canonical. -/
theorem wfFrom_cons {lo a : Nat} {v : Byte} {m : Memory} :
    Memory.wfFrom lo ((a, v) :: m) = true ↔ lo ≤ a ∧ a < memSize ∧ v ≠ 0#8 ∧ Memory.wfFrom (a + 1) m = true := by
  simp [Memory.wfFrom, and_assoc]

/-- A canonical list is canonical from any lower address. -/
theorem wfFrom_mono {lo lo' : Nat} (h : lo ≤ lo') : ∀ {m : Memory}, Memory.wfFrom lo' m = true → Memory.wfFrom lo m = true
  | [], _ => rfl
  | (_, _) :: _, hm => by
    rw [wfFrom_cons] at hm ⊢
    exact ⟨h.trans hm.1, hm.2⟩

/-- Below its first address a canonical memory reads 0. -/
theorem byteAt_of_lt_wfFrom : ∀ {m : Memory} {lo a : Nat}, Memory.wfFrom lo m = true → a < lo → m.byteAt a = 0#8
  | [], _, _, _, _ => rfl
  | (k, w) :: rest, lo, a, hm, ha => by
    obtain ⟨hlo, _, _, hrest⟩ := wfFrom_cons.1 hm
    have hk : k ≠ a := by omega
    simp only [Memory.byteAt, hk, if_false]
    exact byteAt_of_lt_wfFrom hrest (by omega)

/-- Outside 0x00..0xFF a canonical memory lists nothing. -/
theorem byteAt_of_memSize_le : ∀ {m : Memory} {lo a : Nat}, Memory.wfFrom lo m = true → memSize ≤ a → m.byteAt a = 0#8
  | [], _, _, _, _ => rfl
  | (k, w) :: rest, lo, a, hm, ha => by
    obtain ⟨_, hsize, _, hrest⟩ := wfFrom_cons.1 hm
    have hk : k ≠ a := by omega
    simp only [Memory.byteAt, hk, if_false]
    exact byteAt_of_memSize_le hrest ha

/-! ## `put` -/

/-- Replacing a byte keeps the canonical form. -/
theorem put_wfFrom : ∀ {m : Memory} {lo a : Nat} {v : Byte},
    Memory.wfFrom lo m = true → lo ≤ a → a < memSize → Memory.wfFrom lo (m.put a v) = true
  | [], lo, a, v, _, hlo, ha => by
    by_cases hv : v = 0#8
    · simp [Memory.put, hv, Memory.wfFrom]
    · simp [Memory.put, hv, Memory.wfFrom, hlo, ha]
  | (k, w) :: rest, lo, a, v, hm, hlo, ha => by
    obtain ⟨hk, hsize, hw, hrest⟩ := wfFrom_cons.1 hm
    by_cases hka : k < a
    · simp only [Memory.put, hka, if_true]
      exact wfFrom_cons.2 ⟨hk, hsize, hw, put_wfFrom hrest hka ha⟩
    · have htail : Memory.wfFrom (a + 1) (if k = a then rest else (k, w) :: rest) = true := by
        by_cases he : k = a
        · simpa [he] using hrest
        · simp only [he, if_false]
          exact wfFrom_cons.2 ⟨by omega, hsize, hw, hrest⟩
      by_cases hv : v = 0#8
      · simpa [Memory.put, hka, hv] using wfFrom_mono (by omega) htail
      · simp only [Memory.put, hka, if_false, hv]
        exact wfFrom_cons.2 ⟨hlo, ha, hv, htail⟩

theorem put_wf {m : Memory} {a : Nat} {v : Byte} (hm : m.wf = true) (ha : a < memSize) : (m.put a v).wf = true :=
  put_wfFrom hm (Nat.zero_le a) ha

/-- Read after write: the written address holds the byte, every other address holds what it held. -/
theorem byteAt_put : ∀ {m : Memory} {lo a : Nat} {v : Byte} (b : Nat), Memory.wfFrom lo m = true →
    (m.put a v).byteAt b = if a = b then v else m.byteAt b
  | [], lo, a, v, b, _ => by
    by_cases hv : v = 0#8 <;> by_cases hab : a = b <;> simp [Memory.put, Memory.byteAt, hv, hab]
  | (k, w) :: rest, lo, a, v, b, hm => by
    obtain ⟨hk, _, _, hrest⟩ := wfFrom_cons.1 hm
    by_cases hka : k < a
    · simp only [Memory.put, hka, if_true, Memory.byteAt]
      by_cases hkb : k = b
      · have hab : a ≠ b := by omega
        simp [hkb, hab]
      · simp only [hkb, if_false]
        exact byteAt_put b hrest
    · have htail : (if k = a then rest else (k, w) :: rest : Memory).byteAt a = 0#8 := by
        by_cases he : k = a
        · simpa [he] using byteAt_of_lt_wfFrom hrest (by omega)
        · simp only [he, if_false, Memory.byteAt]
          exact byteAt_of_lt_wfFrom hrest (by omega)
      have hother : a ≠ b → (if k = a then rest else (k, w) :: rest : Memory).byteAt b
          = Memory.byteAt ((k, w) :: rest) b := by
        intro hab
        by_cases he : k = a
        · have hkb : k ≠ b := by omega
          simp [he, Memory.byteAt, hab]
        · simp [he]
      by_cases hv : v = 0#8
      · by_cases hab : a = b
        · subst hab
          simpa [Memory.put, hka, hv] using htail
        · simpa [Memory.put, hka, hv, hab] using hother hab
      · by_cases hab : a = b
        · subst hab
          simp [Memory.put, hka, hv, Memory.byteAt]
        · have := hother hab
          simp only [Memory.put, hka, if_false, hv, hab]
          rw [← this]
          simp [Memory.byteAt, hab]

theorem byteAt_put_of_wf {m : Memory} (hm : m.wf = true) (a b : Nat) (v : Byte) :
    (m.put a v).byteAt b = if a = b then v else m.byteAt b :=
  byteAt_put b hm

/-! ## The interface -/

@[simp] theorem memRead_of_lt {m : Memory} {a : Nat} (h : a < memSize) : memRead m a = .ok (m.byteAt a) := by
  simp [memRead, h]

@[simp] theorem memRead_of_le {m : Memory} {a : Nat} (h : memSize ≤ a) : memRead m a = .error (.memory a) := by
  simp [memRead, Nat.not_lt.2 h]

/-- Everything a read can do. -/
theorem memRead_cases (m : Memory) (a : Nat) :
    (a < memSize ∧ memRead m a = .ok (m.byteAt a)) ∨ (memSize ≤ a ∧ memRead m a = .error (.memory a)) := by
  rcases Nat.lt_or_ge a memSize with h | h
  · exact .inl ⟨h, memRead_of_lt h⟩
  · exact .inr ⟨h, memRead_of_le h⟩

theorem memWrite_of_lt {m : Memory} {a : Nat} {v : Byte} (h : a < memSize) : memWrite m a v = .ok (m.put a v) := by
  simp [memWrite, h]

/-- Everything a write can do: it is in range, keeps the canonical form and changes one byte, or it raises. -/
theorem memWrite_cases (m : Memory) (a : Nat) (v : Byte) :
    (a < memSize ∧ memWrite m a v = .ok (m.put a v)) ∨ (memSize ≤ a ∧ memWrite m a v = .error (.memory a)) := by
  rcases Nat.lt_or_ge a memSize with h | h
  · exact .inl ⟨h, memWrite_of_lt h⟩
  · exact .inr ⟨h, by simp [memWrite, Nat.not_lt.2 h]⟩

theorem memWrite_wf {m m' : Memory} {a : Nat} {v : Byte} (hm : m.wf = true) (h : memWrite m a v = .ok m') :
    m'.wf = true := by
  rcases memWrite_cases m a v with ⟨ha, he⟩ | ⟨_, he⟩ <;> rw [he] at h <;> cases h
  exact put_wf hm ha

/-- A byte is an address of memory, so a stack access is never out of range (20_memory.md R53). -/
theorem byte_lt_memSize (v : Byte) : v.toNat < memSize := v.isLt

/-! ## Placing bytes, loading an image -/

theorem placeBytes_wf : ∀ (bytes : List Byte) {m : Memory} {a : Nat}, m.wf = true → (placeBytes m a bytes).wf = true
  | [], _, _, hm => hm
  | v :: rest, m, a, hm => by
    refine placeBytes_wf rest ?_
    by_cases ha : a < memSize
    · simpa [ha] using put_wf hm ha
    · simpa [ha] using hm

theorem ofImage_wfFrom : ∀ (img : List Nat) (k : Nat), k + img.length ≤ memSize →
    Memory.wfFrom k (Memory.ofImage k img) = true
  | [], _, _ => rfl
  | v :: rest, k, hk => by
    have hlen : k + 1 + rest.length ≤ memSize := by simp only [List.length_cons] at hk; omega
    have hrest := ofImage_wfFrom rest (k + 1) hlen
    by_cases hv : BitVec.ofNat 8 v = 0#8
    · simpa [Memory.ofImage, hv] using wfFrom_mono (Nat.le_succ k) hrest
    · simp only [Memory.ofImage, hv, if_false]
      exact wfFrom_cons.2 ⟨Nat.le_refl k, by omega, hv, hrest⟩

/-- Reset's memory is canonical. -/
theorem reset_mem_wf (cfg : Config) : (State.resetWith cfg).mem.wf = true := rfl

end Sys2Proof.Machine
end

