-- ==== Sys2Proof/Laws/Ops.lean ====
section
/-! SUPPORT. What each shared operation can do, said once: the sequencer, the stack primitives, the ALU. -/

namespace Sys2Proof.Machine

/-! ## The stack primitives -/

/-- Everything a push does: it never fails (20_memory.md R53). -/
theorem push_eq (s : State) (v : Byte) :
    push s v = .ok ((s.setReg Reg.sp (s.spVal - 1#8)).setMem (s.mem.put (s.spVal - 1#8).toNat v)) := by
  simp only [push, spVal_setReg, if_true, mem_setReg, memWrite_of_lt (byte_lt_memSize _)]

/-- Everything a pop does: it never fails (20_memory.md R53). -/
theorem pop_eq (s : State) :
    pop s = .ok (s.mem.byteAt s.spVal.toNat, s.setReg Reg.sp (s.spVal + 1#8)) := by
  simp [pop, memRead_of_lt (byte_lt_memSize _)]

/-! ## The sequencer -/

@[simp] theorem complete_error (o : Op) (s : State) (c : FaultCause) : complete o s (.error c) = .next (s.raise c) := rfl

@[simp] theorem complete_redirect (o : Op) (s s' : State) (target : Byte) :
    complete o s (.ok (s', some target)) = .next (s'.setPc target.toNat) := rfl

@[simp] theorem complete_advance (o : Op) (s s' : State) :
    complete o s (.ok (s', none)) = .next (s'.setPc (s.pc + o.width)) := rfl

/-- The sequencer always answers a next state: a fault entry, a redirect or an advance. -/
theorem complete_cases {o : Op} {s : State} (h : Except FaultCause (State × Option Byte)) :
    (∃ c, h = .error c ∧ complete o s h = .next (s.raise c)) ∨
    (∃ s' target, h = .ok (s', some target) ∧ complete o s h = .next (s'.setPc target.toNat)) ∨
    (∃ s', h = .ok (s', none) ∧ complete o s h = .next (s'.setPc (s.pc + o.width))) := by
  match h with
  | .error c => exact .inl ⟨c, rfl, rfl⟩
  | .ok (s', some target) => exact .inr (.inl ⟨s', target, rfl, rfl⟩)
  | .ok (s', none) => exact .inr (.inr ⟨s', rfl, rfl⟩)

/-! ## The ALU -/

theorem wrapByte_toNat (v : Int) : (wrapByte v).toNat = (v % 256).toNat := by
  simp [wrapByte, BitVec.toNat_ofInt]

theorem wrapByte_natCast (n : Nat) : (wrapByte n).toNat = n % 256 := by
  rw [wrapByte_toNat]; omega

/-- Everything an ALU instruction can do, by what the ALU answers. -/
theorem execAlu_cases (o : Op) (t : AluTag) (a b : Reg) (s : State) :
    (∃ v, alu t (s.reg a) (s.reg b) = .result v ∧
      execAlu o t a b s = .next ((s.setReg a v).setPc (s.pc + o.width))) ∨
    (∃ f, alu t (s.reg a) (s.reg b) = .flags f ∧
      execAlu o t a b s = .next ((s.setFlags f).setPc (s.pc + o.width))) ∨
    (alu t (s.reg a) (s.reg b) = .divZero ∧ execAlu o t a b s = .next (s.raise (.divideByZero b))) ∨
    (alu t (s.reg a) (s.reg b) = .unsupported ∧ execAlu o t a b s = .next (s.raise .unsupportedOperation)) := by
  cases h : alu t (s.reg a) (s.reg b) with
  | result v => exact .inl ⟨v, rfl, by simp [execAlu, srcPair, h]⟩
  | flags f => exact .inr (.inl ⟨f, rfl, by simp [execAlu, srcPair, h]⟩)
  | divZero => exact .inr (.inr (.inl ⟨rfl, by simp [execAlu, srcPair, h]⟩))
  | unsupported => exact .inr (.inr (.inr ⟨rfl, by simp [execAlu, srcPair, h]⟩))

/-- The unsigned comparison, flag by flag. -/
theorem compareFlags_eq (va vb : Byte) :
    (compareFlags va vb).equal = decide (va = vb) ∧ (compareFlags va vb).lessThan = decide (va.toNat < vb.toNat) ∧
    (compareFlags va vb).greaterThan = decide (vb.toNat < va.toNat) := by
  refine ⟨?_, rfl, rfl⟩
  by_cases h : va = vb
  · simp [compareFlags, h]
  · have : va.toNat ≠ vb.toNat := fun e => h (BitVec.eq_of_toNat_eq e)
    simp [compareFlags, h, this]

end Sys2Proof.Machine
end

