-- ==== Sys2Proof/Laws/Exec.lean ====
section
/-! SUPPORT. One equation per instruction: what `exec` answers, in terms of the named updates of the state. -/

namespace Sys2Proof.Machine

variable (a b : Reg) (s : State)

theorem exec_hlt : exec .hlt s = .next (s.setRun .halted) := rfl

theorem exec_ldi (imm : Byte) : exec (.ldi a imm) s = .next ((s.setReg a imm).setPc (s.pc + 3)) := rfl

theorem exec_prn : exec (.prn a) s = .next ((s.emit (s.reg a)).setPc (s.pc + 2)) := rfl

theorem exec_mul : exec (.mul a b) s =
    .next ((s.setReg a (wrapByte ((s.reg a).toNat * (s.reg b).toNat))).setPc (s.pc + 3)) := rfl

theorem exec_cmp : exec (.cmp a b) s =
    .next ((s.setFlags (compareFlags (s.reg a) (s.reg b))).setPc (s.pc + 3)) := rfl

theorem exec_add : exec (.add a b) s =
    .next ((s.setReg a (wrapByte ((s.reg a).toNat + (s.reg b).toNat))).setPc (s.pc + 3)) := rfl

theorem exec_sub : exec (.sub a b) s =
    .next ((s.setReg a (wrapByte ((s.reg a).toNat - (s.reg b).toNat))).setPc (s.pc + 3)) := rfl

/-- DIV by its divisor: a fault entry or a quotient. -/
theorem exec_div : exec (.div a b) s =
    if (s.reg b).toNat = 0 then .next (s.raise (.divideByZero b))
    else .next ((s.setReg a (wrapByte ((s.reg a).toNat / (s.reg b).toNat : Nat))).setPc (s.pc + 3)) := by
  by_cases h : (s.reg b).toNat = 0 <;> simp only [exec, execDiv, execAlu, srcPair, alu, h, if_true, if_false] <;> rfl

theorem exec_push : exec (.push a) s =
    .next (((s.setReg Reg.sp (s.spVal - 1#8)).setMem (s.mem.put (s.spVal - 1#8).toNat (s.reg a))).setPc
      (s.pc + 2)) := by
  simp only [exec, execPush, push_eq]; rfl

theorem exec_pop : exec (.pop a) s =
    .next (((s.setReg Reg.sp (s.spVal + 1#8)).setReg a (s.mem.byteAt s.spVal.toNat)).setPc (s.pc + 2)) := by
  simp only [exec, execPop, pop_eq]; rfl

theorem exec_call : exec (.call a) s =
    .next (((s.setReg Reg.sp (s.spVal - 1#8)).setMem
      (s.mem.put (s.spVal - 1#8).toNat (BitVec.ofNat 8 (s.pc + 2)))).setPc (s.reg a).toNat) := by
  simp only [exec, execCall, push_eq]; rfl

theorem exec_ret : exec .ret s =
    .next ((s.setReg Reg.sp (s.spVal + 1#8)).setPc (s.mem.byteAt s.spVal.toNat).toNat) := by
  simp only [exec, execRet, pop_eq]; rfl

theorem exec_jmp : exec (.jmp a) s = .next (s.setPc (s.reg a).toNat) := rfl

theorem exec_jeq : exec (.jeq a) s = .next (s.setPc (if s.flags.equal then (s.reg a).toNat else s.pc + 2)) := by
  simp only [exec, execJeq]; cases s.flags.equal <;> rfl

theorem exec_jne : exec (.jne a) s = .next (s.setPc (if s.flags.equal then s.pc + 2 else (s.reg a).toNat)) := by
  simp only [exec, execJne]; cases s.flags.equal <;> rfl

end Sys2Proof.Machine
end

