-- ==== Sys2Proof/Laws/PerInstr.lean ====
section
/-! SUPPORT. Facts about every instruction as syntax, one lemma per constructor. -/

namespace Sys2Proof.Laws.EncodeLength

/-- The encoding of an instruction has its width, 1 + operand_count bytes (30_encoding.md R80), and fits the fetch
window of three bytes (R82). -/
def Statement (i : Instr) : Prop :=
  ∀ cfg : Config, (encode cfg i).length = i.op.width ∧ (encode cfg i).length ≤ 3

theorem hlt : Statement .hlt := fun _ => ⟨rfl, Nat.le_of_ble_eq_true rfl⟩
theorem ldi (a : Reg) (imm : Byte) : Statement (.ldi a imm) := fun _ => ⟨rfl, Nat.le_of_ble_eq_true rfl⟩
theorem prn (a : Reg) : Statement (.prn a) := fun _ => ⟨rfl, Nat.le_of_ble_eq_true rfl⟩
theorem mul (a b : Reg) : Statement (.mul a b) := fun _ => ⟨rfl, Nat.le_of_ble_eq_true rfl⟩
theorem cmp (a b : Reg) : Statement (.cmp a b) := fun _ => ⟨rfl, Nat.le_of_ble_eq_true rfl⟩
theorem push (a : Reg) : Statement (.push a) := fun _ => ⟨rfl, Nat.le_of_ble_eq_true rfl⟩
theorem pop (a : Reg) : Statement (.pop a) := fun _ => ⟨rfl, Nat.le_of_ble_eq_true rfl⟩
theorem call (a : Reg) : Statement (.call a) := fun _ => ⟨rfl, Nat.le_of_ble_eq_true rfl⟩
theorem ret : Statement .ret := fun _ => ⟨rfl, Nat.le_of_ble_eq_true rfl⟩
theorem jmp (a : Reg) : Statement (.jmp a) := fun _ => ⟨rfl, Nat.le_of_ble_eq_true rfl⟩
theorem jeq (a : Reg) : Statement (.jeq a) := fun _ => ⟨rfl, Nat.le_of_ble_eq_true rfl⟩
theorem jne (a : Reg) : Statement (.jne a) := fun _ => ⟨rfl, Nat.le_of_ble_eq_true rfl⟩
theorem add (a b : Reg) : Statement (.add a b) := fun _ => ⟨rfl, Nat.le_of_ble_eq_true rfl⟩
theorem sub (a b : Reg) : Statement (.sub a b) := fun _ => ⟨rfl, Nat.le_of_ble_eq_true rfl⟩
theorem div (a b : Reg) : Statement (.div a b) := fun _ => ⟨rfl, Nat.le_of_ble_eq_true rfl⟩

end Sys2Proof.Laws.EncodeLength
end

