-- ==== Sys2Proof/Laws/Step.lean ====
section
/-! SUPPORT. What fetch and the step can do, said once. -/

namespace Sys2Proof.Machine

/-- Everything a fetch can do (40_control_unit.md R111 to R113). -/
theorem fetch_cases (cfg : Config) (s : State) :
    (memSize ≤ s.pc ∧ fetch cfg s = .error (.memory s.pc)) ∨
    (s.pc < memSize ∧ s.mem.byteAt s.pc = cfg.opcodeMap .hlt ∧ fetch cfg s = .ok [cfg.opcodeMap .hlt]) ∨
    (s.pc < memSize ∧ memSize ≤ s.pc + 2 ∧ s.mem.byteAt s.pc ≠ cfg.opcodeMap .hlt ∧
      fetch cfg s = .error (.memory memSize)) ∨
    (s.pc + 2 < memSize ∧ s.mem.byteAt s.pc ≠ cfg.opcodeMap .hlt ∧
      fetch cfg s = .ok [s.mem.byteAt s.pc, s.mem.byteAt (s.pc + 1), s.mem.byteAt (s.pc + 2)]) := by
  rcases Nat.lt_or_ge s.pc memSize with h0 | h0
  · by_cases hh : s.mem.byteAt s.pc = cfg.opcodeMap .hlt
    · exact .inr (.inl ⟨h0, hh, by simp [fetch, memRead_of_lt h0, hh]⟩)
    · rcases Nat.lt_or_ge (s.pc + 1) memSize with h1 | h1
      · rcases Nat.lt_or_ge (s.pc + 2) memSize with h2 | h2
        · exact .inr (.inr (.inr ⟨h2, hh, by
            simp [fetch, memRead_of_lt h0, memRead_of_lt h1, memRead_of_lt h2, hh]⟩))
        · have he : s.pc + 2 = memSize := by omega
          exact .inr (.inr (.inl ⟨h0, h2, hh, by
            simp [fetch, memRead_of_lt h0, memRead_of_lt h1, hh, he]⟩))
      · have he : s.pc + 1 = memSize := by omega
        exact .inr (.inr (.inl ⟨h0, by omega, hh, by
          simp [fetch, memRead_of_lt h0, hh, he]⟩))
  · exact .inl ⟨h0, by simp [fetch, memRead_of_le h0]⟩

/-- Everything a step can do: it stops where no step is defined, takes a fault of fetch or decode, or executes. -/
theorem stepWith_cases (cfg : Config) (s : State) :
    (s.run = .halted ∧ stepWith cfg s = .fault .stepAfterHalt) ∨
    (∃ record, s.run = .faulted record ∧ stepWith cfg s = .fault (.stepAfterFault record)) ∨
    (∃ c, s.run = .running ∧ fetchDecode cfg s = .error c ∧ stepWith cfg s = .next (s.raise c)) ∨
    (∃ i, s.run = .running ∧ fetchDecode cfg s = .ok i ∧ stepWith cfg s = exec i s) := by
  match hr : s.run with
  | .halted => exact .inl ⟨rfl, by simp [stepWith, hr]⟩
  | .faulted record => exact .inr (.inl ⟨record, rfl, by simp [stepWith, hr]⟩)
  | .running =>
    match hf : fetchDecode cfg s with
    | .error c => exact .inr (.inr (.inl ⟨c, rfl, rfl, by simp [stepWith, hr, hf]⟩))
    | .ok i => exact .inr (.inr (.inr ⟨i, rfl, rfl, by simp [stepWith, hr, hf]⟩))

/-- `step` is the step with the default parameters. -/
theorem step_eq (s : State) : step s = stepWith Config.standard s := rfl

end Sys2Proof.Machine
end

