-- ==== Sys2Proof/Tests/Slice0.lean ====
section
/-! SUPPORT. The model's own tests. Expected values come from spec/95_test_vectors.md (a vector's id is in the comment) or
are written out from the encoding tables of spec/30_encoding.md. -/

namespace Sys2Proof.Tests

open Sys2Proof.Machine Sys2Proof.Reference

/-! ## Helpers -/

/-- Reset with some registers set, pc set, some bytes of memory, and the given bytes at pc. -/
def st (pc : Nat) (regs : List (Reg × Byte)) (cells : List (Nat × Byte)) (bytes : List Byte) : State :=
  let s := regs.foldl (fun s p => s.setReg p.1 p.2) State.reset
  (s.setPc pc).setMem (placeBytes (cells.foldl (fun m c => m.put c.1 c.2) []) pc bytes)

def flagE : Flags := { equal := true, lessThan := false, greaterThan := false }
def flagL : Flags := { equal := false, lessThan := true, greaterThan := false }
def flagG : Flags := { equal := false, lessThan := false, greaterThan := true }

/-- EXT_ALU = false. -/
def noExt : Config := { Config.standard with extAlu := false }

/-- An opcode map that gives two mnemonics one byte. -/
def clash : Config := { Config.standard with opcodeMap := fun _ => 0x01 }

/-- The next state of a step, if there is one. -/
def after (s : State) : Option State :=
  match step s with
  | .next t => some t
  | .fault _ => none
  | .refused _ => none

/-- What a view of the next state shows. -/
def shows {α : Type} (s : State) (f : State → α) : Option α := (after s).map f

/-- The run state of a fault with this cause, pc and opcode. -/
def faultedWith (cause : FaultCause) (pc : Nat) (opcode : Option Byte) : RunState :=
  .faulted { cause := cause, pc := pc, opcode := opcode }

/-! ## WellFormed: each check refuses an ill-formed term -/

theorem test_config_refuses_shared_opcode : clash.wellFormed = false := by decide
theorem test_config_accepts_standard : Config.standard.wellFormed = true ∧ noExt.wellFormed = true := by decide
theorem test_instr_refuses_add_without_extAlu : (Instr.add 0 1).wellFormed noExt = false := by decide
theorem test_instr_refuses_sub_without_extAlu : (Instr.sub 0 1).wellFormed noExt = false := by decide
theorem test_instr_refuses_div_without_extAlu : (Instr.div 0 1).wellFormed noExt = false := by decide
theorem test_memory_wf_refuses_unsorted : Memory.wf [(5, 1), (3, 1)] = false := by decide
theorem test_memory_wf_refuses_zero_cell : Memory.wf [(5, 0)] = false := by decide
theorem test_memory_wf_refuses_outside : Memory.wf [(256, 1)] = false := by decide

/-! ## Decoding: a word per constructor, written out from 30_encoding.md R84 and R81 -/

theorem test_decode_hlt : decode Config.standard [0b00000001] = .ok .hlt := rfl
theorem test_decode_ldi : decode Config.standard [0b10000010, 0b00000101, 0b11111111] = .ok (.ldi 5 0xFF) := rfl
theorem test_decode_prn : decode Config.standard [0b01000111, 0b00000111, 0b11111111] = .ok (.prn 7) := rfl
theorem test_decode_mul : decode Config.standard [0b10100010, 0b00000001, 0b00000010] = .ok (.mul 1 2) := rfl
theorem test_decode_cmp : decode Config.standard [0b10100111, 0b00000000, 0b00000010] = .ok (.cmp 0 2) := rfl
theorem test_decode_push : decode Config.standard [0b01000101, 0b00000010, 0b00000000] = .ok (.push 2) := rfl
theorem test_decode_pop : decode Config.standard [0b01000110, 0b00000011, 0b00000000] = .ok (.pop 3) := rfl
theorem test_decode_call : decode Config.standard [0b01010000, 0b00000001, 0b00000000] = .ok (.call 1) := rfl
theorem test_decode_ret : decode Config.standard [0b00010001, 0b11111111, 0b11111111] = .ok .ret := rfl
theorem test_decode_jmp : decode Config.standard [0b01010100, 0b00000011, 0b00000000] = .ok (.jmp 3) := rfl
theorem test_decode_jeq : decode Config.standard [0b01010101, 0b00000010, 0b00000000] = .ok (.jeq 2) := rfl
theorem test_decode_jne : decode Config.standard [0b01010110, 0b00000011, 0b00000000] = .ok (.jne 3) := rfl
theorem test_decode_add : decode Config.standard [0b10100000, 0b00000000, 0b00000001] = .ok (.add 0 1) := rfl
theorem test_decode_sub : decode Config.standard [0b10100001, 0b00000001, 0b00000010] = .ok (.sub 1 2) := rfl
theorem test_decode_div : decode Config.standard [0b10100011, 0b00000110, 0b00000111] = .ok (.div 6 7) := rfl
theorem test_decode_truncated : decode Config.standard [0x47] = .error (.truncated 1) := rfl
/-- DV8: with EXT_ALU = false the byte of DIV is illegal. -/
theorem test_decode_div_without_extAlu : decode noExt [0xA3, 0, 1] = .error (.illegalOpcode 0xA3) := rfl

/-! ## The host's two probes -/

theorem test_decodeTableWord_ldi : decodeTableWord 24 0x080082 = some (.ldi 0 8) := rfl
theorem test_decodeTableWord_masks : decodeTableWord 8 0xFFFF47 = some (.prn 0) := rfl
theorem test_every_row_runs_first_after_reset :
    Op.all.all (fun o => (after (State.reset.withFetchWord 8 (standardOpcode o).toNat)).isSome) = true := by decide
theorem test_withFetchWord_runs_ldi :
    shows (State.reset.withFetchWord 24 0x080082) (fun t => (t.reg 0, t.pc)) = some (8, 3) := by decide

/-! ## One step each: the vectors of 95_test_vectors.md -/

/-- CU1 -/
theorem test_hlt_at_top : shows (st 0xFF [] [] [0x01]) (fun t => (t.run, t.pc)) = some (.halted, 0xFF) := by decide
/-- CU4 -/
theorem test_ldi_at_0xFD :
    shows (st 0xFD [] [] [0x82, 0, 5]) (fun t => (t.reg 0, t.pc)) = some (5, 0x100) := by decide
/-- LD3 -/
theorem test_ldi_sp : shows (st 0 [] [] [0x82, 7, 0x10]) (fun t => (t.spVal, t.pc)) = some (0x10, 3) := by decide
/-- PR2 -/
theorem test_prn_sp : shows (st 0 [] [] [0x47, 7]) (fun t => (t.out, t.pc)) = some ([0xF4], 2) := by decide
/-- CU13 -/
theorem test_prn_ignores_opB :
    shows (st 0 [(0, 3)] [] [0x47, 0, 0xFF]) (fun t => (t.out, t.pc)) = some ([3], 2) := by decide
/-- PR1, PR3 -/
theorem test_printed_line : (printedLine 72, printedLine 0) = ("Printing: 72", "Printing: 0") := by decide
/-- MU3 -/
theorem test_mul_wraps : shows (st 0 [(0, 255), (1, 255)] [] [0xA2, 0, 1]) (·.reg 0) = some 1 := by decide
/-- MU5 -/
theorem test_mul_keeps_flags :
    shows ((st 0 [(0, 128), (1, 2)] [] [0xA2, 0, 1]).setFlags flagE) (fun t => (t.reg 0, t.flags)) = some (0, flagE) := by
  decide
/-- CM4 -/
theorem test_cmp_unsigned : shows (st 0 [(0, 0xFF)] [] [0xA7, 0, 1]) (·.flags) = some flagG := by decide
/-- CM6 -/
theorem test_cmp_clears :
    shows ((st 0 [(4, 77)] [] [0xA7, 4, 4]).setFlags flagL) (fun t => (t.flags, t.reg 4)) = some (flagE, 77) := by decide
/-- AD2 -/
theorem test_add_wraps : shows (st 0 [(0, 255), (1, 1)] [] [0xA0, 0, 1]) (·.reg 0) = some 0 := by decide
/-- AD3 -/
theorem test_add_same_register : shows (st 0 [(0, 130)] [] [0xA0, 0, 0]) (·.reg 0) = some 4 := by decide
/-- SB2 -/
theorem test_sub_wraps : shows (st 0 [(2, 1)] [] [0xA1, 1, 2]) (·.reg 1) = some 255 := by decide
/-- SB1 -/
theorem test_sub_order : shows (st 0 [(1, 5), (2, 1)] [] [0xA1, 1, 2]) (·.reg 1) = some 4 := by decide
/-- DV1 -/
theorem test_div_quotient : shows (st 0 [(0, 7), (1, 2)] [] [0xA3, 0, 1]) (·.reg 0) = some 3 := by decide
/-- DV5 -/
theorem test_div_by_zero :
    shows (st 0 [(0, 7)] [] [0xA3, 0, 1]) (fun t => (t.run, t.reg 0, t.pc)) =
      some (faultedWith (.divideByZero 1) 0 (some 0xA3), 7, 0) := by decide
/-- ST2 -/
theorem test_push_sp_pushes_old :
    shows (st 0 [] [] [0x45, 7]) (fun t => (t.spVal, t.mem.byteAt 0xF3)) = some (0xF3, 0xF4) := by decide
/-- ST3 -/
theorem test_push_wraps :
    shows (st 0 [(1, 0x99), (7, 0)] [] [0x45, 1]) (fun t => (t.spVal, t.mem.byteAt 0xFF)) = some (0xFF, 0x99) := by
  decide
/-- ST5 -/
theorem test_pop_sp_keeps_popped : shows (st 0 [(7, 0xF3)] [(0xF3, 0x20)] [0x46, 7]) (·.spVal) = some 0x20 := by decide
/-- ST6 -/
theorem test_pop_wraps :
    shows (st 0 [(7, 0xFF)] [(0xFF, 0x42)] [0x46, 0]) (fun t => (t.reg 0, t.spVal)) = some (0x42, 0) := by decide
/-- CF2 -/
theorem test_call_sp_uses_old :
    shows (st 0x10 [] [] [0x50, 7]) (fun t => (t.mem.byteAt 0xF3, t.spVal, t.pc)) = some (0x12, 0xF3, 0xF4) := by decide
/-- CF3 -/
theorem test_call_at_0xFD :
    shows (st 0xFD [] [] [0x50, 1]) (fun t => (t.mem.byteAt 0xF3, t.spVal, t.pc)) = some (0xFF, 0xF3, 0) := by decide
/-- CF5 -/
theorem test_ret_wraps : shows (st 0 [(7, 0xFF)] [(0xFF, 0x30)] [0x11]) (fun t => (t.pc, t.spVal)) = some (0x30, 0) := by
  decide
/-- CU2 -/
theorem test_ret_at_0xFE_faults :
    shows (st 0xFE [] [] [0x11]) (fun t => (t.run, t.spVal)) =
      some (faultedWith (.memory 0x100) 0xFE (some 0x11), 0xF4) := by decide
/-- CU14 -/
theorem test_jmp_to_itself :
    shows (st 0x20 [(1, 0x20)] [] [0x54, 1]) (fun t => (t.pc, t.run)) = some (0x20, .running) := by decide
/-- CF7 -/
theorem test_jeq_taken : shows ((st 0x13 [(2, 0x40)] [] [0x55, 2]).setFlags flagE) (·.pc) = some 0x40 := by decide
/-- CF9 -/
theorem test_jeq_before_cmp : shows (st 0x13 [] [] [0x55, 2]) (·.pc) = some 0x15 := by decide
/-- CF10 -/
theorem test_jne_taken_on_greater :
    shows ((st 0x12 [(3, 0x0C)] [] [0x56, 3]).setFlags flagG) (·.pc) = some 0x0C := by decide
/-- CF12 -/
theorem test_jne_not_taken : shows ((st 0x12 [] [] [0x56, 3]).setFlags flagE) (·.pc) = some 0x14 := by decide
/-- CU4, its second step -/
theorem test_fetch_at_0x100 :
    shows (st 0x100 [] [] []) (·.run) = some (faultedWith (.memory 0x100) 0x100 none) := by decide
/-- CU6 -/
theorem test_illegal_at_0xFE_is_out_of_bounds :
    shows (st 0xFE [] [] [0xFF, 0xFF]) (·.run) = some (faultedWith (.memory 0x100) 0xFE (some 0xFF)) := by decide
/-- CU10 -/
theorem test_register_check_before_divide :
    shows (st 0 [] [] [0xA3, 9, 1]) (·.run) = some (faultedWith (.register 9) 0 (some 0xA3)) := by decide
/-- CU9 -/
theorem test_register_check_when_not_taken :
    shows (st 0 [] [] [0x55, 9, 0]) (·.run) = some (faultedWith (.register 9) 0 (some 0x55)) := by decide
/-- CU11 -/
theorem test_unmapped_alu_byte_illegal :
    shows (st 0 [] [] [0xA4, 0, 1]) (·.run) = some (faultedWith .illegalInstruction 0 (some 0xA4)) := by decide

/-! ## Witnesses: every statement with hypotheses has a state and operands that meet them together -/

theorem witness_DecodeInvertsEncode :
    Config.standard.wellFormed = true ∧ (Instr.prn 3).wellFormed Config.standard = true ∧
    3 ≤ (encode Config.standard (.prn 3) ++ [0xFF]).length := by decide
theorem witness_EncodeInvertsDecode : decode Config.standard [0xA2, 0, 1, 9] = .ok (.mul 0 1) := rfl
theorem witness_DecodeRefusesExactly :
    Config.standard.wellFormed = true ∧ (0x47 : Byte) ≠ Config.standard.opcodeMap .hlt ∧
    Config.standard.dispatched .prn = true ∧ Config.standard.opcodeMap .prn = 0x47 ∧
    badRegister .prn 8 0 = some 8 ∧ badRegister .prn 7 0xFF = none := by decide
theorem witness_MemoryInterface :
    Memory.wf [(0xFF, 1)] = true ∧ 0xFF < (0x100 : Nat) ∧ (0xFF : Nat) ≤ 0xFF ∧
    (st 0x100 [] [] []).run = .running ∧ fetch Config.standard (st 0x100 [] [] []) = .error (.memory 0x100) :=
  ⟨by decide, by decide, by decide, rfl, rfl⟩
theorem witness_MemoryFormIsUnique :
    Memory.wf [(0, 2), (0xFF, 1)] = true ∧
    ∀ a ≤ 0xFF, memRead [(0, 2), (0xFF, 1)] a = memRead [(0, 2), (0xFF, 1)] a := ⟨by decide, fun _ _ => rfl⟩
theorem witness_LoadedImageLayout :
    [0x82, 0, 0xFF].length ≤ 256 ∧ (∀ v ∈ [0x82, 0, 0xFF], v ≤ 255) ∧ 2 < [0x82, 0, 0xFF].length ∧
    [0x82, 0, 0xFF].length ≤ 3 := by decide
theorem witness_LoadedImageLayout_full :
    (List.replicate 256 255).length ≤ 256 ∧ ∀ v ∈ List.replicate 256 255, v ≤ 255 := by
  constructor
  · rw [List.length_replicate]
  · intro v hv; simp only [List.mem_replicate] at hv; omega
theorem witness_UnfitImageRefused :
    256 < (List.replicate 257 0).length ∧ (∃ v ∈ [256], 255 < v) :=
  ⟨by rw [List.length_replicate]; omega, 256, by decide, by decide⟩
theorem witness_LoadedStateMeetsInvariant :
    atMostOneFlag Config.standard.flagsReset = true ∧
    loadImage Config.standard [1] = some (State.reset.setMem [(0, 1)]) := by decide

/-- A loaded state meets the invariant and has a next state. -/
theorem witness_StepKeepsInvariant :
    Inv Config.standard (st 0 [] [] [0x82, 0, 8]) ∧ (after (st 0 [] [] [0x82, 0, 8])).isSome = true :=
  ⟨⟨by decide, by decide, by decide, (fun h => by cases h), fun _ h => by cases h⟩, by decide⟩
theorem witness_StepRunsDecodedInstruction :
    (st 0xFD [] [] [0x82, 0, 5]).run = .running ∧ memRead (st 0xFD [] [] [0x82, 0, 5]).mem 0xFD = .ok 0x82 ∧
    memRead (st 0xFD [] [] [0x82, 0, 5]).mem 0xFE = .ok 0 ∧ memRead (st 0xFD [] [] [0x82, 0, 5]).mem 0xFF = .ok 5 ∧
    decode Config.standard [0x82, 0, 5] = .ok (.ldi 0 5) := ⟨rfl, rfl, rfl, rfl, rfl⟩
theorem witness_StepRunsDecodedInstruction_hlt :
    (st 0xFF [] [] [0x01]).run = .running ∧ memRead (st 0xFF [] [] [0x01]).mem 0xFF = .ok 0x01 ∧
    decode Config.standard [0x01] = .ok .hlt := ⟨rfl, rfl, rfl⟩
theorem witness_StepDefinedExactlyWhileRunning :
    State.reset.run = .running ∧ (State.reset.setRun .halted).run ≠ .running ∧
    (State.reset.raise .illegalInstruction).run ≠ .running := by decide
theorem witness_HltByteHalts :
    (st 0xFF [] [] [0x01]).run = .running ∧
    memRead (st 0xFF [] [] [0x01]).mem (st 0xFF [] [] [0x01]).pc = .ok (Config.standard.opcodeMap .hlt) := ⟨rfl, rfl⟩
theorem witness_FetchWindowFaults :
    (st 0x100 [] [] []).run = .running ∧ 0xFF < (st 0x100 [] [] []).pc ∧
    (st 0xFF [] [] [0x47]).run = .running ∧ 0xFE ≤ (st 0xFF [] [] [0x47]).pc ∧
    memRead (st 0xFF [] [] [0x47]).mem (st 0xFF [] [] [0x47]).pc = .ok 0x47 ∧
    0xFE ≤ (st 0xFE [] [] [0x11]).pc ∧
    memRead (st 0xFE [] [] [0x11]).mem (st 0xFE [] [] [0x11]).pc = .ok 0x11 ∧
    (0x47 : Byte) ≠ Config.standard.opcodeMap .hlt ∧ (0x11 : Byte) ≠ Config.standard.opcodeMap .hlt :=
  ⟨rfl, by decide, rfl, by decide, rfl, by decide, rfl, by decide, by decide⟩
theorem witness_IllegalOpcodeFaults :
    (st 0xFD [] [] []).run = .running ∧ (st 0xFD [] [] []).pc ≤ 0xFD ∧
    memRead (st 0xFD [] [] []).mem (st 0xFD [] [] []).pc = .ok 0 ∧
    (∀ o, Config.standard.dispatched o = true → Config.standard.opcodeMap o ≠ 0) ∧
    Op.add ∈ [Op.add, .sub, .div] ∧ noExt.dispatched .ldi = true :=
  ⟨rfl, by decide, rfl, fun o _ => by cases o <;> decide, by decide, rfl⟩
theorem witness_RegisterIndexFaults :
    Config.standard.wellFormed = true ∧ (st 0xFD [] [] [0xA2, 0, 0xFF]).run = .running ∧
    Config.standard.dispatched .mul = true ∧
    memRead (st 0xFD [] [] [0xA2, 0, 0xFF]).mem 0xFD = .ok (Config.standard.opcodeMap .mul) ∧
    memRead (st 0xFD [] [] [0xA2, 0, 0xFF]).mem 0xFE = .ok 0 ∧
    memRead (st 0xFD [] [] [0xA2, 0, 0xFF]).mem 0xFF = .ok 0xFF ∧ badRegister .mul 0 0xFF = some 0xFF :=
  ⟨by decide, rfl, rfl, rfl, rfl, rfl, by decide⟩
theorem witness_FaultEntryIsPrecise :
    State.reset.run = .running ∧ shows State.reset (·.run) = some (faultedWith .illegalInstruction 0 (some 0)) := by decide
theorem witness_ExecuteEndsRunExactly :
    State.reset.run = .running ∧ State.reset.reg 0 = 0 ∧
    exec (.div 1 0) State.reset = .next (State.reset.raise (.divideByZero 0)) := ⟨rfl, rfl, rfl⟩
theorem witness_StepMatchesFlatPseudocode :
    Config.standard.wellFormed = true ∧ noExt.wellFormed = true ∧ (st 0 [] [] [0xA3, 0, 1]).mem.wf = true ∧
    (st 0 [] [] [0xA3, 0, 1]).run = .running := by decide
theorem witness_PcSequencing :
    exec (.jmp 1) State.reset = .next (State.reset.setPc 0) ∧ State.reset.run = .running ∧
    (State.reset.setPc 0).run = .running ∧ redirectTarget (.jeq 0) State.reset = none ∧ redirectTarget (.jmp 0) State.reset = some 0 ∧
    (Instr.jeq 0).op.setsPc = .conditional ∧ (Instr.ret).op.setsPc = .yes ∧ (Instr.prn 0).op.setsPc = .no :=
  ⟨rfl, rfl, rfl, rfl, rfl, rfl, rfl, rfl⟩
theorem witness_OnlyNamedRegistersMatter : (5 : Reg) ∉ touchedRegs (.push 0) ∧ (7 : Reg) ∉ touchedRegs (.mul 0 1) := by
  decide
theorem witness_FlagsWrittenByCmpReadByBranches :
    (∀ a b, Instr.jmp 1 ≠ .cmp a b) ∧ exec (.jmp 1) State.reset = .next (State.reset.setPc 0) :=
  ⟨(fun _ _ h => by cases h), rfl⟩
theorem witness_OutputIsWriteOnly :
    exec (.prn 7) State.reset = .next ((State.reset.emit 0xF4).setPc 2) := rfl
theorem witness_OnlyPushAndCallStore :
    State.reset.mem.wf = true ∧ ∃ t, exec (.push 7) State.reset = .next t :=
  ⟨rfl, _, exec_push 7 State.reset⟩
theorem witness_MulAddSubWrap :
    Instr.sub 1 2 = .sub 1 2 ∧
    (255 : Nat) = ((st 0 [(2, 1)] [] []).reg 1).toNat + 256 - ((st 0 [(2, 1)] [] []).reg 2).toNat := by decide
theorem witness_DivQuotient : (st 0 [(0, 7), (1, 2)] [] []).reg 1 ≠ 0 := by decide
theorem witness_DivByZeroFaults :
    (st 0xFF [(0, 7)] [] [0xA3]).reg 1 = 0 ∧
    memRead (st 0xFF [(0, 7)] [] [0xA3]).mem (st 0xFF [(0, 7)] [] [0xA3]).pc = .ok 0xA3 := ⟨by decide, rfl⟩
theorem witness_PushStoresBelowSp : (st 0 [(7, 0)] [(0xFF, 3)] []).mem.wf = true := by decide
theorem witness_PopLoadsFromSp : (3 : Reg) ≠ 7 := by decide
theorem witness_CallPushesReturnAddress :
    (st 0xFD [] [] [0x50, 1]).mem.wf = true ∧ (st 0xFD [] [] [0x50, 1]).pc ≤ 0xFD := by decide
theorem witness_JumpsSetOnlyPc :
    Instr.jeq 2 = .jeq 2 ∧ true = ((st 0x13 [(2, 0x40)] [] []).setFlags flagE).flags.equal := by decide
theorem witness_StackIsLifo :
    State.reset.mem.wf = true ∧ (∀ o ∈ [StackOp.push 0, .push 1, .pop 2], o.reg ≠ 7) ∧
    (stackRun [.push 0, .push 1, .pop 2] State.reset.reg []).isSome = true :=
  ⟨rfl, by simp [StackOp.reg], rfl⟩

/-- Pushes that fit leave their values on the list, newest first. -/
theorem stackRun_pushes (a : Reg) (rest : List StackOp) (x : Reg → Byte) :
    ∀ (n : Nat) (stack : List Byte), stack.length + n ≤ 256 →
      stackRun (List.replicate n (.push a) ++ rest) x stack = stackRun rest x (List.replicate n (x a) ++ stack)
  | 0, _, _ => rfl
  | n + 1, stack, h => by
    rw [List.replicate_succ, List.cons_append, stackRun, if_pos (by omega),
      stackRun_pushes a rest x n _ (by simp only [List.length_cons]; omega), List.replicate_succ',
      List.append_assoc, List.singleton_append]
/-- The depth the law ends at: 256 values pushed, which takes SP once around, and one popped again. -/
theorem witness_StackIsLifo_full :
    (∀ o ∈ List.replicate 256 (StackOp.push 0) ++ [.pop 1], o.reg ≠ 7) ∧
    stackRun (List.replicate 256 (.push 0)) State.reset.reg [] =
      some (State.reset.reg, List.replicate 256 (State.reset.reg 0)) ∧
    (stackRun (List.replicate 256 (.push 0) ++ [.pop 1]) State.reset.reg []).isSome = true := by
  refine ⟨?_, ?_, ?_⟩
  · intro o ho
    simp only [List.mem_append, List.mem_replicate, List.mem_singleton] at ho
    rcases ho with ⟨-, rfl⟩ | rfl <;> decide
  · have h := stackRun_pushes 0 [] State.reset.reg 256 [] (by decide)
    rw [List.append_nil, List.append_nil] at h
    exact h
  · rw [stackRun_pushes 0 _ _ 256 [] (by decide)]; rfl
theorem witness_CallThenRetResumes :
    (st 0xFD [] [] []).mem.wf = true ∧ (st 0xFD [] [] []).pc ≤ 0xFD ∧
    ∃ t, exec (.call 1) (st 0xFD [] [] []) = .next t ∧ t.spVal = t.spVal ∧
      memRead t.mem t.spVal.toNat = memRead t.mem t.spVal.toNat :=
  ⟨by decide, by decide, _, exec_call 1 _, rfl, rfl⟩
/-- P9 at its third instruction: a pushed HLT is the next opcode. -/
theorem witness_StoredByteIsFetchedNext :
    (st 6 [(7, 9), (1, 1)] [] [0x45, 1]).mem.wf = true ∧ (st 6 [(7, 9), (1, 1)] [] [0x45, 1]).run = .running ∧
    (st 6 [(7, 9), (1, 1)] [] [0x45, 1]).reg 1 = Config.standard.opcodeMap .hlt ∧
    ∃ t, exec (.push 1) (st 6 [(7, 9), (1, 1)] [] [0x45, 1]) = .next t ∧
      t.pc + 0 = ((st 6 [(7, 9), (1, 1)] [] [0x45, 1]).spVal - 1#8).toNat :=
  ⟨by decide, rfl, by decide, _, exec_push 1 _, by decide⟩
/-- A PUSH at 0xFB with SP = 0 stores the last operand byte of the window at 0xFD. -/
theorem witness_StoredByteIsFetchedNext_operand :
    (st 0xFB [(7, 0), (1, 6)] [] []).mem.wf = true ∧ (st 0xFB [(7, 0), (1, 6)] [] []).run = .running ∧
    ∃ t, exec (.push 1) (st 0xFB [(7, 0), (1, 6)] [] []) = .next t ∧
      t.pc + 2 = ((st 0xFB [(7, 0), (1, 6)] [] []).spVal - 1#8).toNat ∧ t.pc ≤ 0xFD ∧
      memRead t.mem t.pc ≠ .ok (Config.standard.opcodeMap .hlt) :=
  ⟨by decide, rfl, _, exec_push 1 _, by decide, by decide, fun h => by cases h⟩
/-- A PUSH at 0xFC with SP = 0xFF stores RET at 0xFE, where it is fetched and its window faults. -/
theorem witness_StoredByteIsFetchedNext_top :
    ∃ t, exec (.push 1) (st 0xFC [(7, 0xFF), (1, 0x11)] [] []) = .next t ∧
      t.pc + 0 = ((st 0xFC [(7, 0xFF), (1, 0x11)] [] []).spVal - 1#8).toNat ∧ 0xFE ≤ t.pc ∧
      (0x11 : Byte) ≠ Config.standard.opcodeMap .hlt :=
  ⟨_, exec_push 1 _, by decide, by decide, by decide⟩
/-- A CALL at 0xFD jumps to the byte its return address is stored in. -/
theorem witness_StoredByteIsFetchedNext_call :
    (0xFF : Byte).toNat = ((st 0xFD [(1, 0xF3)] [] []).pc + 2) % 256 ∧
    ∃ t, exec (.call 1) (st 0xFD [(1, 0xF3)] [] []) = .next t ∧
      t.pc + 0 = ((st 0xFD [(1, 0xF3)] [] []).spVal - 1#8).toNat ∧ t.pc ≤ 0xFD ∧
      memRead t.mem t.pc = .ok 0xFF :=
  ⟨rfl, _, exec_call 1 _, by decide, by decide, rfl⟩
theorem witness_JumpToItselfNeverEnds :
    Config.standard.wellFormed = true ∧ (st 0xFD [(1, 0xFD)] [] [0x54, 1]).run = .running ∧
    (st 0xFD [(1, 0xFD)] [] [0x54, 1]).pc ≤ 0xFD ∧
    memRead (st 0xFD [(1, 0xFD)] [] [0x54, 1]).mem 0xFD = .ok (Config.standard.opcodeMap .jmp) ∧
    memRead (st 0xFD [(1, 0xFD)] [] [0x54, 1]).mem 0xFE = .ok (regByte 1) ∧
    ((st 0xFD [(1, 0xFD)] [] [0x54, 1]).reg 1).toNat = (st 0xFD [(1, 0xFD)] [] [0x54, 1]).pc :=
  ⟨by decide, rfl, by decide, rfl, rfl, by decide⟩
theorem witness_DebugDumpShows :
    memRead (st 0xFE [] [] [1, 2]).mem ((st 0xFE [] [] [1, 2]).pc + 1) = .ok 2 ∧
    0xFF < (st 0xFE [] [] [1, 2]).pc + 2 ∧ (1 : Nat) < 3 ∧ (2 : Nat) < 3 := ⟨rfl, by decide, by decide, by decide⟩

end Sys2Proof.Tests
end

/-! # The state family: the step's invariant (O13) and the noninterference statements (O24, O25, O26) -/

/-! ## What decoding a full window answers -/

namespace Sys2Proof

/-- What the operand part of the decoder may answer for the row `o`: an instruction of that row, or the index of a
register operand above 7 (40_control_unit.md R115). -/
def AnswersRow (o : Op) (answer : Except DecodeError Instr) : Prop :=
  (∃ i, answer = .ok i ∧ i.op = o) ∨ ∃ index, answer = .error (.registerIndex index) ∧ 7 < index.toNat

/-- Everything the register-index check can do. -/
theorem regOperand_cases (v : Byte) :
    (∃ r, regOperand v = .ok r) ∨ (regOperand v = .error (.registerIndex v) ∧ 7 < v.toNat) := by
  rcases Nat.lt_or_ge v.toNat 8 with h | h
  · exact .inl ⟨_, regOperand_of_lt h⟩
  · exact .inr ⟨regOperand_of_le h, h⟩

theorem formatR_answersRow {o : Op} {mk : Reg → Instr} (hmk : ∀ a, (mk a).op = o) (opA : Byte) :
    AnswersRow o (formatR mk opA) := by
  rcases regOperand_cases opA with ⟨a, ha⟩ | ⟨ha, hlt⟩
  · exact .inl ⟨mk a, by simp [formatR, ha], hmk a⟩
  · exact .inr ⟨opA, by simp [formatR, ha], hlt⟩

theorem formatRI_answersRow {o : Op} {mk : Reg → Byte → Instr} (hmk : ∀ a imm, (mk a imm).op = o) (opA opB : Byte) :
    AnswersRow o (formatRI mk opA opB) := by
  rcases regOperand_cases opA with ⟨a, ha⟩ | ⟨ha, hlt⟩
  · exact .inl ⟨mk a opB, by simp [formatRI, ha], hmk a opB⟩
  · exact .inr ⟨opA, by simp [formatRI, ha], hlt⟩

theorem formatRR_answersRow {o : Op} {mk : Reg → Reg → Instr} (hmk : ∀ a b, (mk a b).op = o) (opA opB : Byte) :
    AnswersRow o (formatRR mk opA opB) := by
  rcases regOperand_cases opA with ⟨a, ha⟩ | ⟨ha, hlt⟩
  · rcases regOperand_cases opB with ⟨b, hb⟩ | ⟨hb, hlt⟩
    · exact .inl ⟨mk a b, by simp [formatRR, ha, hb], hmk a b⟩
    · exact .inr ⟨opB, by simp [formatRR, ha, hb], hlt⟩
  · exact .inr ⟨opA, by simp [formatRR, ha], hlt⟩

/-- Each row's format builds instructions of that row. -/
theorem decodeOperands_answersRow (o : Op) (opA opB : Byte) : AnswersRow o (decodeOperands o opA opB) := by
  cases o with
  | hlt | ret => exact .inl ⟨_, rfl, rfl⟩
  | ldi => apply formatRI_answersRow; exact fun _ _ => rfl
  | prn | push | pop | call | jmp | jeq | jne => apply formatR_answersRow; exact fun _ => rfl
  | mul | cmp | add | sub | div => apply formatRR_answersRow; exact fun _ _ => rfl

/-- Everything the decoder can do with a full window whose opcode byte is not HLT's. -/
theorem decode_window_cases {cfg : Config} {opcode : Byte} (hne : opcode ≠ cfg.opcodeMap .hlt) (opA opB : Byte) :
    (decode cfg [opcode, opA, opB] = .error (.illegalOpcode opcode) ∧ cfg.dispatch opcode = none) ∨
    (∃ index, decode cfg [opcode, opA, opB] = .error (.registerIndex index) ∧ 7 < index.toNat) ∨
    (∃ i, decode cfg [opcode, opA, opB] = .ok i ∧ cfg.dispatched i.op = true ∧ cfg.opcodeMap i.op = opcode) := by
  cases hd : cfg.dispatch opcode with
  | none => exact .inl ⟨by simp [decode, hne, hd], rfl⟩
  | some o =>
    have hdec : decode cfg [opcode, opA, opB] = decodeOperands o opA opB := by simp [decode, hne, hd]
    rw [hdec]
    rcases decodeOperands_answersRow o opA opB with ⟨i, hi, rfl⟩ | hindex
    · exact .inr (.inr ⟨i, hi, dispatch_some hd⟩)
    · exact .inr (.inl hindex)

theorem width_le (o : Op) : o.width ≤ 3 := by cases o <;> decide

end Sys2Proof

namespace Sys2Proof.Machine

open Sys2Proof.Reference (redirectTarget touchedRegs emitted storeAddress)

/-! ## What an executed instruction leaves of each field -/

/-- An instruction that completes, field by field: the run state stays, pc is redirected or advances by the width, at
most the instruction's own store address is written, only CMP writes the flags, and only PRN emits. HLT ends the run. -/
structure Completes (i : Instr) (s t : State) : Prop where
  ne_hlt : i ≠ .hlt
  run : t.run = s.run
  pc : t.pc = (redirectTarget i s).elim (s.pc + i.op.width) BitVec.toNat
  mem : t.mem = s.mem ∨ ∃ a ∈ storeAddress i s, ∃ v, t.mem = s.mem.put a v
  flags : t.flags = s.flags ∨ ∃ a b, i = .cmp a b ∧ t.flags = compareFlags (s.reg a) (s.reg b)
  out : t.out = s.out ++ emitted i s

/-- An instruction without store, comparison and output completes when it leaves those fields alone. -/
theorem Completes.of_fields_eq {i : Instr} {s t : State} (hne : i ≠ .hlt) (hrun : t.run = s.run := by rfl)
    (hpc : t.pc = (redirectTarget i s).elim (s.pc + i.op.width) BitVec.toNat := by rfl)
    (hmem : t.mem = s.mem := by rfl) (hflags : t.flags = s.flags := by rfl) (hout : t.out = s.out := by rfl)
    (hemit : emitted i s = [] := by rfl) : Completes i s t :=
  ⟨hne, hrun, hpc, .inl hmem, .inl hflags, by rw [hout, hemit, List.append_nil]⟩

/-- Everything an instruction can do: HLT halts, DIV by a zero register takes its fault, all else completes. -/
theorem exec_cases (i : Instr) (s : State) :
    (i = .hlt ∧ exec i s = .next (s.setRun .halted)) ∨
    (∃ a b, i = .div a b ∧ s.reg b = 0#8 ∧ exec i s = .next (s.raise (.divideByZero b))) ∨
    (∃ t, exec i s = .next t ∧ Completes i s t) := by
  cases i with
  | hlt => exact .inl ⟨rfl, rfl⟩
  | ldi a imm => exact .inr (.inr ⟨_, exec_ldi a s imm, .of_fields_eq nofun⟩)
  | prn a => exact .inr (.inr ⟨_, exec_prn a s, nofun, rfl, rfl, .inl rfl, .inl rfl, rfl⟩)
  | mul a b => exact .inr (.inr ⟨_, exec_mul a b s, .of_fields_eq nofun⟩)
  | cmp a b =>
    exact .inr (.inr ⟨_, exec_cmp a b s, nofun, rfl, rfl, .inl rfl, .inr ⟨a, b, rfl, rfl⟩, (List.append_nil _).symm⟩)
  | push a =>
    exact .inr (.inr ⟨_, exec_push a s, nofun, rfl, rfl, .inr ⟨_, List.mem_singleton_self _, _, rfl⟩, .inl rfl,
      (List.append_nil _).symm⟩)
  | pop a => exact .inr (.inr ⟨_, exec_pop a s, .of_fields_eq nofun⟩)
  | call a =>
    exact .inr (.inr ⟨_, exec_call a s, nofun, rfl, rfl, .inr ⟨_, List.mem_singleton_self _, _, rfl⟩, .inl rfl,
      (List.append_nil _).symm⟩)
  | ret => exact .inr (.inr ⟨_, exec_ret s, .of_fields_eq nofun⟩)
  | jmp a => exact .inr (.inr ⟨_, exec_jmp a s, .of_fields_eq nofun⟩)
  | jeq a =>
    have hpc : (if s.flags.equal then (s.reg a).toNat else s.pc + 2) =
        (redirectTarget (.jeq a) s).elim (s.pc + Op.width .jeq) BitVec.toNat := by
      cases he : s.flags.equal <;> simp [redirectTarget, he, Op.width, Op.operandCount]
    exact .inr (.inr ⟨_, exec_jeq a s, .of_fields_eq nofun (hpc := hpc)⟩)
  | jne a =>
    have hpc : (if s.flags.equal then s.pc + 2 else (s.reg a).toNat) =
        (redirectTarget (.jne a) s).elim (s.pc + Op.width .jne) BitVec.toNat := by
      cases he : s.flags.equal <;> simp [redirectTarget, he, Op.width, Op.operandCount]
    exact .inr (.inr ⟨_, exec_jne a s, .of_fields_eq nofun (hpc := hpc)⟩)
  | add a b => exact .inr (.inr ⟨_, exec_add a b s, .of_fields_eq nofun⟩)
  | sub a b => exact .inr (.inr ⟨_, exec_sub a b s, .of_fields_eq nofun⟩)
  | div a b =>
    by_cases hb : (s.reg b).toNat = 0
    · exact .inr (.inl ⟨a, b, rfl, BitVec.eq_of_toNat_eq hb, (exec_div a b s).trans (if_pos hb)⟩)
    · exact .inr (.inr ⟨_, (exec_div a b s).trans (if_neg hb), .of_fields_eq nofun⟩)

/-! ## The invariant of the step -/

/-- The instruction the step executes, as memory holds it: its opcode byte stands at pc, and unless it is HLT it is
dispatched and its whole window lies inside memory. -/
structure FetchedAt (cfg : Config) (s : State) (i : Instr) : Prop where
  pcLt : s.pc < memSize
  opcode : s.mem.byteAt s.pc = cfg.opcodeMap i.op
  window : i ≠ .hlt → s.pc + 2 < memSize ∧ cfg.dispatched i.op = true

theorem fetchedOpcode_of_lt {s : State} (h : s.pc < memSize) : s.fetchedOpcode = some (s.mem.byteAt s.pc) := by
  simp [State.fetchedOpcode, memRead_of_lt h]

/-- Everything fetch and decode can do from a pc that is at most 0x100: raise a fault that the state explains, or
answer the instruction that stands at pc. -/
theorem fetchDecode_cases (cfg : Config) {s : State} (hpc : s.pc ≤ memSize) :
    (∃ c, fetchDecode cfg s = .error c ∧ causeExplained cfg s s.fetchedOpcode c) ∨
    (∃ i, fetchDecode cfg s = .ok i ∧ FetchedAt cfg s i) := by
  rcases fetch_cases cfg s with ⟨hge, hf⟩ | ⟨hlt, hop, hf⟩ | ⟨_, hge, _, hf⟩ | ⟨hlt, hne, hf⟩
  · have heq : s.pc = 0x100 := Nat.le_antisymm hpc hge
    exact .inl ⟨.memory s.pc, by simp [fetchDecode, hf], heq, by omega⟩
  · exact .inr ⟨.hlt, by simp [fetchDecode, hf, decode], hlt, hop, fun h => absurd rfl h⟩
  · have hpc : 0xFE ≤ s.pc := Nat.sub_le_of_le_add hge
    exact .inl ⟨.memory memSize, by simp [fetchDecode, hf], rfl, hpc⟩
  · have hop := fetchedOpcode_of_lt (s := s) (by omega)
    rcases decode_window_cases hne (s.mem.byteAt (s.pc + 1)) (s.mem.byteAt (s.pc + 2)) with
      ⟨hd, hnone⟩ | ⟨index, hd, hindex⟩ | ⟨i, hd, hdisp, hmap⟩
    · exact .inl ⟨.illegalInstruction, by simp [fetchDecode, hf, hd, decodeFault], _, hop, hnone⟩
    · exact .inl ⟨.register index, by simp [fetchDecode, hf, hd, decodeFault], hindex⟩
    · exact .inr ⟨i, by simp [fetchDecode, hf, hd], by omega, hmap.symm, fun _ => ⟨hlt, hdisp⟩⟩

/-- What explains a cause is not the run state. -/
theorem causeExplained_raise (cfg : Config) (s : State) (c d : FaultCause) (opcode : Option Byte) :
    causeExplained cfg (s.raise c) opcode d ↔ causeExplained cfg s opcode d := by
  cases d <;> exact Iff.rfl

/-- Taking a fault that the state explains keeps the invariant. -/
theorem Inv.raise {cfg : Config} {s : State} {c : FaultCause} (hs : Inv cfg s)
    (hc : causeExplained cfg s s.fetchedOpcode c) : Inv cfg (s.raise c) where
  memWf := hs.memWf
  pcLe := hs.pcLe
  flagsExclusive := hs.flagsExclusive
  haltedAtHlt h := by simp at h
  faultedRecord record h := by
    rw [run_raise, RunState.faulted.injEq] at h
    subst h
    exact ⟨rfl, rfl, (causeExplained_raise ..).2 hc⟩

/-- Halting at a HLT byte keeps the invariant. -/
theorem Inv.halt {cfg : Config} {s : State} (hs : Inv cfg s) (hi : FetchedAt cfg s .hlt) :
    Inv cfg (s.setRun .halted) where
  memWf := hs.memWf
  pcLe := hs.pcLe
  flagsExclusive := hs.flagsExclusive
  haltedAtHlt _ := (memRead_of_lt hi.pcLt).trans (congrArg _ hi.opcode)
  faultedRecord _ h := by simp at h

/-- The unsigned comparison sets exactly one flag (42_alu.md R154). -/
theorem exactlyOneFlag_compareFlags (va vb : Byte) : exactlyOneFlag (compareFlags va vb) = true := by
  rcases Nat.lt_trichotomy va.toNat vb.toNat with h | h | h
  · simp [exactlyOneFlag, atMostOneFlag, compareFlags, h, h.ne, h.le]
  · simp [exactlyOneFlag, atMostOneFlag, compareFlags, h]
  · simp [exactlyOneFlag, atMostOneFlag, compareFlags, h, h.ne', h.le]

theorem atMostOneFlag_of_exactlyOneFlag {f : Flags} (h : exactlyOneFlag f = true) : atMostOneFlag f = true :=
  (Bool.and_eq_true_iff.1 h).1

/-- A stack access stores at a byte's value, inside memory (20_memory.md R53). -/
theorem storeAddress_lt {i : Instr} {s : State} {a : Nat} (h : a ∈ storeAddress i s) : a < memSize := by
  cases i with
  | push | call => exact List.mem_singleton.1 h ▸ byte_lt_memSize _
  | hlt | ldi | prn | mul | cmp | pop | ret | jmp | jeq | jne | add | sub | div => simp [storeAddress] at h

theorem Completes.mem_wf {i : Instr} {s t : State} (h : Completes i s t) (hs : s.mem.wf = true) : t.mem.wf = true := by
  rcases h.mem with hm | ⟨a, ha, v, hm⟩
  · rw [hm, hs]
  · rw [hm, put_wf hs (storeAddress_lt ha)]

/-- A redirect goes to a byte's value, and an advance starts at 0xFD or below. -/
theorem Completes.pc_le {i : Instr} {s t : State} (h : Completes i s t) (hpc : s.pc + 2 < memSize) :
    t.pc ≤ memSize := by
  rw [h.pc]
  cases redirectTarget i s with
  | some target => exact (byte_lt_memSize target).le
  | none =>
    have := width_le i.op
    simp only [Option.elim_none]
    omega

theorem Completes.atMostOneFlag {i : Instr} {s t : State} (h : Completes i s t)
    (hs : atMostOneFlag s.flags = true) : atMostOneFlag t.flags = true := by
  rcases h.flags with hf | ⟨a, b, _, hf⟩
  · rw [hf, hs]
  · rw [hf, atMostOneFlag_of_exactlyOneFlag (exactlyOneFlag_compareFlags _ _)]

/-- An instruction that completes while the run goes on keeps the invariant. -/
theorem Inv.completes {cfg : Config} {s t : State} {i : Instr} (hs : Inv cfg s) (hrun : s.run = .running)
    (hpc : s.pc + 2 < memSize) (h : Completes i s t) : Inv cfg t where
  memWf := h.mem_wf hs.memWf
  pcLe := h.pc_le hpc
  flagsExclusive := h.atMostOneFlag hs.flagsExclusive
  haltedAtHlt ht := by simp [h.run, hrun] at ht
  faultedRecord _ ht := by simp [h.run, hrun] at ht

/-- Executing the instruction that stands at pc keeps the invariant. -/
theorem Inv.exec_next {cfg : Config} {s t : State} {i : Instr} (hs : Inv cfg s) (hrun : s.run = .running)
    (hi : FetchedAt cfg s i) (h : exec i s = .next t) : Inv cfg t := by
  rcases exec_cases i s with ⟨rfl, he⟩ | ⟨a, b, rfl, hb, he⟩ | ⟨u, he, hc⟩
  · cases he.symm.trans h
    exact hs.halt hi
  · cases he.symm.trans h
    obtain ⟨_, hdisp⟩ := hi.window (by simp)
    exact hs.raise ⟨hdisp, (fetchedOpcode_of_lt hi.pcLt).trans (congrArg some hi.opcode), hb⟩
  · cases he.symm.trans h
    exact hs.completes hrun (hi.window hc.ne_hlt).1 hc

/-- One step keeps the invariant, under every configuration. -/
theorem Inv.stepWith_next {cfg : Config} {s t : State} (hs : Inv cfg s) (h : stepWith cfg s = .next t) : Inv cfg t := by
  rcases stepWith_cases cfg s with ⟨_, he⟩ | ⟨_, _, he⟩ | ⟨c, _, hf, he⟩ | ⟨i, hrun, hf, he⟩
  · cases he.symm.trans h
  · cases he.symm.trans h
  · cases he.symm.trans h
    rcases fetchDecode_cases cfg hs.pcLe with ⟨c', hf', hc⟩ | ⟨i, hf', _⟩
    · cases hf'.symm.trans hf
      exact hs.raise hc
    · cases hf'.symm.trans hf
  · rcases fetchDecode_cases cfg hs.pcLe with ⟨c, hf', _⟩ | ⟨i', hf', hi⟩
    · cases hf'.symm.trans hf
    · cases hf'.symm.trans hf
      exact hs.exec_next hrun hi (he.symm.trans h)

/-- Settles O13: a step takes a fault that the state explains, or executes the instruction that stands at pc, and each
keeps the invariant. -/
theorem stepKeepsInvariant : Obligations.StepKeepsInvariant :=
  ⟨fun _ _ _ hs h => hs.stepWith_next h, fun _ _ hs h => hs.stepWith_next h⟩

/-! ## Updates of the state that an instruction does not see -/

/-- The instruction does not see the update `f` of the state: `f` leaves alone what the instruction reads, and commutes
with every update the instruction makes. Most of this holds by unfolding when `f` writes a single field. -/
structure Unseen (i : Instr) (f : State → State) : Prop where
  pc_eq : ∀ s, (f s).pc = s.pc := by intros; rfl
  mem_eq : ∀ s, (f s).mem = s.mem := by intros; rfl
  equal_eq : ∀ s, (f s).flags.equal = s.flags.equal := by intros; rfl
  reg_eq : ∀ r ∈ touchedRegs i, ∀ s, (f s).reg r = s.reg r := by intros; rfl
  setPc_comm : ∀ s p, (f s).setPc p = f (s.setPc p) := by intros; rfl
  setMem_comm : ∀ s m, (f s).setMem m = f (s.setMem m) := by intros; rfl
  setRun_comm : ∀ s x, (f s).setRun x = f (s.setRun x) := by intros; rfl
  emit_comm : ∀ s v, (f s).emit v = f (s.emit v) := by intros; rfl
  setReg_comm : ∀ r ∈ touchedRegs i, ∀ s v, (f s).setReg r v = f (s.setReg r v) := by intros; rfl
  setFlags_comm : ∀ a b, i = .cmp a b → ∀ s g, (f s).setFlags g = f (s.setFlags g) := by intros; rfl

namespace Unseen

variable {i : Instr} {f : State → State}

theorem raise_comm (hf : Unseen i f) (s : State) (c : FaultCause) : (f s).raise c = f (s.raise c) := by
  simp only [State.raise, State.fetchedOpcode, hf.mem_eq, hf.pc_eq, hf.setRun_comm]

/-- An instruction runs the same before and after an update it does not see. -/
theorem exec_comm (hf : Unseen i f) (s : State) : exec i (f s) = mapNext f (exec i s) := by
  have hr := hf.reg_eq
  have hw := hf.setReg_comm
  cases i <;> simp only [touchedRegs, List.forall_mem_cons] at hr hw
  case hlt => simp [exec_hlt, mapNext, hf.setRun_comm]
  case ldi a imm => simp [exec_ldi, mapNext, hw, hf.pc_eq, hf.setPc_comm]
  case prn a => simp [exec_prn, mapNext, hr, hf.pc_eq, hf.emit_comm, hf.setPc_comm]
  case mul a b => simp [exec_mul, mapNext, hr, hw, hf.pc_eq, hf.setPc_comm]
  case cmp a b => simp [exec_cmp, mapNext, hr, hf.setFlags_comm a b rfl, hf.pc_eq, hf.setPc_comm]
  case push a =>
    simp [exec_push, mapNext, spVal_eq, Reg.sp, hr, hw, hf.pc_eq, hf.mem_eq, hf.setMem_comm, hf.setPc_comm]
  case pop a => simp [exec_pop, mapNext, spVal_eq, Reg.sp, hr, hw, hf.pc_eq, hf.mem_eq, hf.setPc_comm]
  case call a =>
    simp [exec_call, mapNext, spVal_eq, Reg.sp, hr, hw, hf.pc_eq, hf.mem_eq, hf.setMem_comm, hf.setPc_comm]
  case ret => simp [exec_ret, mapNext, spVal_eq, Reg.sp, hr, hw, hf.mem_eq, hf.setPc_comm]
  case jmp a => simp [exec_jmp, mapNext, hr, hf.setPc_comm]
  case jeq a => simp [exec_jeq, mapNext, hr, hf.equal_eq, hf.pc_eq, hf.setPc_comm]
  case jne a => simp [exec_jne, mapNext, hr, hf.equal_eq, hf.pc_eq, hf.setPc_comm]
  case add a b => simp [exec_add, mapNext, hr, hw, hf.pc_eq, hf.setPc_comm]
  case sub a b => simp [exec_sub, mapNext, hr, hw, hf.pc_eq, hf.setPc_comm]
  case div a b =>
    by_cases h0 : (s.reg b).toNat = 0
    · simp [exec_div, mapNext, hr, h0, hf.raise_comm]
    · simp [exec_div, mapNext, hr, h0, hw, hf.pc_eq, hf.setPc_comm]

end Unseen

/-- Fetch and decode read pc and memory alone. -/
theorem fetchDecode_congr (cfg : Config) {s t : State} (hpc : t.pc = s.pc) (hmem : t.mem = s.mem) :
    fetchDecode cfg t = fetchDecode cfg s := by
  have hfault : decodeFault t = decodeFault s := by
    funext e
    cases e <;> simp [decodeFault, hpc]
  simp only [fetchDecode, fetch, hpc, hmem, hfault]

/-- A step runs the same before and after an update that no instruction sees and that keeps the run state. -/
theorem stepWith_comm_of_unseen {f : State → State} (hf : ∀ i, Unseen i f) (hrun : ∀ s, (f s).run = s.run)
    (cfg : Config) (s : State) : stepWith cfg (f s) = mapNext f (stepWith cfg s) := by
  have hfd : fetchDecode cfg (f s) = fetchDecode cfg s :=
    fetchDecode_congr cfg ((hf .hlt).pc_eq s) ((hf .hlt).mem_eq s)
  rcases stepWith_cases cfg s with ⟨hr, he⟩ | ⟨_, hr, he⟩ | ⟨c, hr, hd, he⟩ | ⟨i, hr, hd, he⟩
  · rw [he]; simp [stepWith, hrun, hr, mapNext]
  · rw [he]; simp [stepWith, hrun, hr, mapNext]
  · rw [he]; simp [stepWith, hrun, hr, hfd, hd, mapNext, (hf .hlt).raise_comm]
  · rw [he]; simp [stepWith, hrun, hr, hfd, hd, (hf i).exec_comm]

/-! ## Registers an instruction does not name -/

/-- Writes of two different registers commute. -/
theorem setReg_comm {r q : Reg} (h : r ≠ q) (s : State) (v w : Byte) :
    (s.setReg r v).setReg q w = (s.setReg q w).setReg r v := by
  refine state_ext (fun p => ?_) rfl rfl rfl rfl rfl
  by_cases hq : q = p
  · simp [hq, hq ▸ h]
  · simp [hq]

theorem unseen_setReg {i : Instr} {r : Reg} (h : r ∉ touchedRegs i) (v : Byte) :
    Unseen i (fun s => s.setReg r v) where
  reg_eq _ hq s := reg_setReg_of_ne s r _ v (ne_of_mem_of_not_mem hq h).symm
  setReg_comm _ hq s w := setReg_comm (ne_of_mem_of_not_mem hq h).symm s v w

/-- Settles O24: a write of a register that the instruction does not touch is an update it does not see. -/
theorem onlyNamedRegistersMatter : Obligations.OnlyNamedRegistersMatter :=
  fun _ s _ v h => (unseen_setReg h v).exec_comm s

/-! ## Flags -/

/-- FL.L and FL.G, set to any values, are seen by no instruction; CMP alone writes flags. -/
theorem unseen_lessThan_greaterThan {i : Instr} (hcmp : ∀ a b, i ≠ .cmp a b) (l g : Bool) :
    Unseen i (fun s => s.setFlags { s.flags with lessThan := l, greaterThan := g }) where
  setFlags_comm a b h := absurd h (hcmp a b)

/-- Only CMP writes flags. -/
theorem exec_flags_of_ne_cmp {i : Instr} {s t : State} (hcmp : ∀ a b, i ≠ .cmp a b) (h : exec i s = .next t) :
    t.flags = s.flags := by
  rcases exec_cases i s with ⟨_, he⟩ | ⟨_, _, _, _, he⟩ | ⟨u, he, hc⟩
  · cases he.symm.trans h
    rfl
  · cases he.symm.trans h
    rfl
  · cases he.symm.trans h
    rcases hc.flags with hf | ⟨a, b, hi, _⟩
    · exact hf
    · exact absurd hi (hcmp a b)

/-- CMP does not see the flags it replaces. -/
theorem exec_cmp_setFlags (a b : Reg) (s : State) (f : Flags) : exec (.cmp a b) (s.setFlags f) = exec (.cmp a b) s := by
  rw [exec_cmp, exec_cmp]
  rfl

/-- Settles O25, clause by clause: who writes flags, what CMP writes, what JEQ and JNE go by, what nobody reads. -/
theorem flagsWrittenByCmpReadByBranches : Obligations.FlagsWrittenByCmpReadByBranches :=
  ⟨fun _ _ _ hcmp h => exec_flags_of_ne_cmp hcmp h,
    fun a b s => ⟨_, exec_cmp a b s, exactlyOneFlag_compareFlags _ _⟩,
    fun a s => ⟨_, _, exec_jeq a s, exec_jne a s, rfl, rfl⟩,
    fun _ s l g hcmp => (unseen_lessThan_greaterThan hcmp l g).exec_comm s,
    exec_cmp_setFlags,
    fun _ _ => rfl⟩

/-! ## Output -/

theorem unseen_earlierOutput (i : Instr) (earlier : List Byte) :
    Unseen i (fun s => s.setOut (earlier ++ s.out)) where
  emit_comm s v := congrArg s.setOut (List.append_assoc earlier s.out [v])

/-- Only PRN emits. -/
theorem exec_out {i : Instr} {s t : State} (h : exec i s = .next t) : t.out = s.out ++ emitted i s := by
  rcases exec_cases i s with ⟨rfl, he⟩ | ⟨_, _, rfl, _, he⟩ | ⟨u, he, hc⟩
  · cases he.symm.trans h
    exact (List.append_nil _).symm
  · cases he.symm.trans h
    exact (List.append_nil _).symm
  · cases he.symm.trans h
    exact hc.out

/-- Settles O26: output put in front is an update that no instruction sees, and `exec_out` says who emits. -/
theorem outputIsWriteOnly : Obligations.OutputIsWriteOnly :=
  ⟨fun cfg s earlier => stepWith_comm_of_unseen (fun i => unseen_earlierOutput i earlier) (fun _ => rfl) cfg s,
    fun _ _ _ h => exec_out h⟩

end Sys2Proof.Machine

/-! # The memory family: the memory interface (O6), who stores (O27), a stored byte is fetched next (O43) -/

namespace Sys2Proof.Machine

open Sys2Proof.Reference (storeAddress)

/-! ## Reads and writes through the interface -/

theorem memWrite_of_le {m : Memory} {a : Nat} {v : Byte} (h : memSize ≤ a) : memWrite m a v = .error (.memory a) := by
  simp [memWrite, Nat.not_lt.2 h]

/-- A byte stored inside memory is read back (20_memory.md R52). -/
theorem memRead_put_self {m : Memory} (hm : m.wf = true) {a : Nat} (ha : a < memSize) (v : Byte) :
    memRead (m.put a v) a = .ok v := by
  simp [memRead_of_lt ha, byteAt_put_of_wf hm]

/-- A stored byte changes no other address, inside memory or outside (20_memory.md R54). -/
theorem memRead_put_of_ne {m : Memory} (hm : m.wf = true) {a b : Nat} (hne : b ≠ a) (v : Byte) :
    memRead (m.put a v) b = memRead m b := by
  simp [memRead, byteAt_put_of_wf hm, hne.symm]

/-! ## A step by what its fetch answers -/

section

variable {cfg : Config} {s t : State}

/-- A fault of the fetch ends the step in its fault entry. -/
theorem stepWith_of_fetch_error {c : FaultCause} (hrun : s.run = .running) (hf : fetch cfg s = .error c) :
    stepWith cfg s = .next (s.raise c) := by
  simp [stepWith, hrun, fetchDecode, hf]

/-- The step executes what the fetched bytes decode to. -/
theorem stepWith_of_fetch_ok {bytes : List Byte} {i : Instr} (hrun : s.run = .running)
    (hf : fetch cfg s = .ok bytes) (hd : decode cfg bytes = .ok i) : stepWith cfg s = exec i s := by
  simp [stepWith, hrun, fetchDecode, hf, hd]

/-- HLT's opcode byte is fetched alone (40_control_unit.md R113). -/
theorem fetch_of_hlt (hpc : s.pc < memSize) (hop : s.mem.byteAt s.pc = cfg.opcodeMap .hlt) :
    fetch cfg s = .ok [cfg.opcodeMap .hlt] := by
  rcases fetch_cases cfg s with ⟨hge, _⟩ | ⟨_, _, hf⟩ | ⟨_, _, hne, _⟩ | ⟨_, hne, _⟩
  · omega
  · exact hf
  · exact absurd hop hne
  · exact absurd hop hne

/-- Any other opcode byte is fetched with the two bytes after it (40_control_unit.md R112). -/
theorem fetch_of_window (hpc : s.pc + 2 < memSize) (hop : s.mem.byteAt s.pc ≠ cfg.opcodeMap .hlt) :
    fetch cfg s = .ok [s.mem.byteAt s.pc, s.mem.byteAt (s.pc + 1), s.mem.byteAt (s.pc + 2)] := by
  rcases fetch_cases cfg s with ⟨hge, _⟩ | ⟨_, heq, _⟩ | ⟨_, hge, _, _⟩ | ⟨_, _, hf⟩
  · omega
  · exact absurd heq hop
  · omega
  · exact hf

/-- At the top of memory the window of any other opcode byte is cut off at 0x100 (40_control_unit.md R112). -/
theorem fetch_of_short_window (hpc : s.pc < memSize) (htop : memSize ≤ s.pc + 2)
    (hop : s.mem.byteAt s.pc ≠ cfg.opcodeMap .hlt) : fetch cfg s = .error (.memory memSize) := by
  rcases fetch_cases cfg s with ⟨hge, _⟩ | ⟨_, heq, _⟩ | ⟨_, _, _, hf⟩ | ⟨hlt, _, _⟩
  · omega
  · exact absurd heq hop
  · exact hf
  · omega

/-- A HLT byte at pc halts the run (40_control_unit.md R121). -/
theorem stepWith_of_hlt (hrun : s.run = .running) (hpc : s.pc < memSize)
    (hop : s.mem.byteAt s.pc = cfg.opcodeMap .hlt) : stepWith cfg s = .next (s.setRun .halted) :=
  stepWith_of_fetch_ok (i := .hlt) hrun (fetch_of_hlt hpc hop) (by simp [decode])

/-- Any other opcode byte in the last two cells is the opcode of the fetch's fault record. -/
theorem stepWith_of_short_window (hrun : s.run = .running) (hpc : s.pc < memSize) (htop : memSize ≤ s.pc + 2)
    (hop : s.mem.byteAt s.pc ≠ cfg.opcodeMap .hlt) :
    stepWith cfg s = .next (s.setRun (.faulted
      { cause := .memory memSize, pc := s.pc, opcode := some (s.mem.byteAt s.pc) })) := by
  rw [stepWith_of_fetch_error hrun (fetch_of_short_window hpc htop hop), State.raise, fetchedOpcode_of_lt hpc]

/-! ## Runs that have ended -/

theorem runFor_succ_of_next (h : stepWith cfg s = .next t) (k : Nat) : runFor cfg (k + 1) s = runFor cfg k t := by
  simp [runFor, h]

/-- A run that has ended stays where it is (40_control_unit.md R120). -/
theorem runFor_of_not_running (h : s.run ≠ .running) (k : Nat) : runFor cfg k s = s := by
  cases k with
  | zero => rfl
  | succ k =>
    rcases stepWith_cases cfg s with ⟨_, he⟩ | ⟨_, _, he⟩ | ⟨_, hr, _, _⟩ | ⟨_, hr, _, _⟩
    · simp [runFor, he]
    · simp [runFor, he]
    · exact absurd hr h
    · exact absurd hr h

/-- A fault of the fetch ends the run for good, with its record (60_exceptions.md R203, R205). -/
theorem runFor_of_fetch_error {c : FaultCause} (hrun : s.run = .running) (hf : fetch cfg s = .error c) (k : Nat) :
    runFor cfg (k + 1) s = s.raise c := by
  rw [runFor_succ_of_next (stepWith_of_fetch_error hrun hf), runFor_of_not_running (by simp)]

end

/-- Settles O6: the range check decides; inside memory the laws of `put` say the rest. -/
theorem memoryInterface : Obligations.MemoryInterface := by
  intro m addr v hm
  constructor
  · intro hout
    refine ⟨memRead_of_le hout, memWrite_of_le hout, fun cfg s hrun hf => ?_⟩
    exact ⟨{ cause := .memory addr, pc := s.pc, opcode := s.fetchedOpcode }, rfl, rfl, rfl,
      runFor_of_fetch_error hrun hf⟩
  · intro hin
    have ha : addr < memSize := Nat.lt_succ_of_le hin
    exact ⟨⟨_, memRead_of_lt ha⟩, m.put addr v, memWrite_of_lt ha, put_wf hm ha, memRead_put_self hm ha v,
      fun _ hne => memRead_put_of_ne hm hne v⟩

/-! ## Which addresses an instruction stores to -/

/-- An instruction that completes stores to its store address alone. -/
theorem Completes.keepsMem {i : Instr} {s t : State} (h : Completes i s t) (hs : s.mem.wf = true) :
    KeepsMem s t (storeAddress i s) := by
  intro b hb
  rcases h.mem with hm | ⟨a, ha, v, hm⟩
  · rw [hm]
  · rw [hm, memRead_put_of_ne hs (ne_of_mem_of_not_mem ha hb).symm]

/-- Settles O27: HLT and a fault entry leave memory as it is, and all else completes. -/
theorem onlyPushAndCallStore : Obligations.OnlyPushAndCallStore := by
  intro i s t hs h
  rcases exec_cases i s with ⟨_, he⟩ | ⟨_, _, _, _, he⟩ | ⟨u, he, hc⟩ <;> cases he.symm.trans h
  · exact fun _ _ => rfl
  · exact fun _ _ => rfl
  · exact hc.keepsMem hs

/-! ## A stored byte on its way to the next fetch -/

/-- What PUSH and CALL have in common: the run goes on, and memory differs by the byte stored below SP. -/
theorem exec_stores_below_sp {i : Instr} {a : Reg} {s : State} {stored : Byte}
    (hi : i = .push a ∧ stored = s.reg a ∨ i = .call a ∧ stored.toNat = (s.pc + 2) % 256) :
    ∃ t, exec i s = .next t ∧ t.run = s.run ∧ t.mem = s.mem.put (s.spVal - 1#8).toNat stored := by
  rcases hi with ⟨rfl, rfl⟩ | ⟨rfl, hv⟩
  · exact ⟨_, exec_push a s, rfl, rfl⟩
  · obtain rfl : stored = BitVec.ofNat 8 (s.pc + 2) := BitVec.eq_of_toNat_eq (by simp [hv])
    exact ⟨_, exec_call a s, rfl, rfl⟩

/-- Position `k` of the fetch window is the byte at pc + k. -/
theorem window_getElem? (m : Memory) (p : Nat) {k : Nat} (hk : k < 3) :
    [m.byteAt p, m.byteAt (p + 1), m.byteAt (p + 2)][k]? = some (m.byteAt (p + k)) := by
  match k, hk with
  | 0, _ | 1, _ | 2, _ => rfl

/-- Settles O43: the next state holds the stored byte at pc + k, and its step goes by the bytes at pc. -/
theorem storedByteIsFetchedNext : Obligations.StoredByteIsFetchedNext := by
  intro cfg i a s stored hs hrun hi
  obtain ⟨t, he, htrun, hmem⟩ := exec_stores_below_sp hi
  refine ⟨t, he, fun k hk hat => ?_⟩
  have hrun : t.run = .running := htrun.trans hrun
  have hlt : t.pc + k < memSize := hat ▸ byte_lt_memSize _
  have hpc : t.pc < memSize := by omega
  have hbyte : t.mem.byteAt (t.pc + k) = stored := by simp [hmem, hat, byteAt_put_of_wf hs]
  refine ⟨fun hwhole hne => ?_, ?_, ?_⟩
  · have hop : t.mem.byteAt t.pc ≠ cfg.opcodeMap .hlt := fun h => hne (by rw [memRead_of_lt hpc, h])
    have hf := fetch_of_window (Nat.lt_succ_of_le (Nat.add_le_add_right hwhole 2)) hop
    exact ⟨_, hf, rfl, by rw [window_getElem? _ _ hk, hbyte], fun _ hd => stepWith_of_fetch_ok hrun hf hd⟩
  · rintro rfl hhlt
    exact stepWith_of_hlt hrun hpc (hbyte.trans hhlt)
  · rintro rfl htop hne
    have hop : t.mem.byteAt t.pc = stored := hbyte
    rw [stepWith_of_short_window hrun hpc (Nat.add_le_add_right htop 2) (hop ▸ hne), hop]
    rfl

end Sys2Proof.Machine

/-! # The encoding family: the decode round trips (O1, O2), the decoder's refusals (O3), a loaded image (O8) -/

namespace Sys2Proof

open Sys2Proof.Reference (regOperands)

/-! ## The three formats (30_encoding.md R81) -/

section

variable {mk : Reg → Instr} {mkImm : Reg → Byte → Instr} {mkPair : Reg → Reg → Instr}
variable {opA opB : Byte} {a b : Reg} {i : Instr}

@[simp] theorem formatR_regByte : formatR mk (regByte a) = .ok (mk a) := by
  simp [formatR]

@[simp] theorem formatRR_regByte : formatRR mkPair (regByte a) (regByte b) = .ok (mkPair a b) := by
  simp [formatRR]

/-- Format `RI` is format `R` at each immediate, which is not checked. -/
theorem formatRI_eq_formatR : formatRI mkImm opA opB = formatR (fun a => mkImm a opB) opA := rfl

/-! A format is its register-index checks one after the other. -/

theorem formatR_eq_bind : formatR mk opA = (regOperand opA).bind fun a => .ok (mk a) := by
  cases h : regOperand opA <;> simp [formatR, h, Except.bind]

theorem formatRR_eq_bind :
    formatRR mkPair opA opB = (regOperand opA).bind fun a => (regOperand opB).bind fun b => .ok (mkPair a b) := by
  cases ha : regOperand opA <;> cases hb : regOperand opB <;> simp [formatRR, ha, hb, Except.bind]

/-- A check that is passed was of the operand byte of a register. -/
theorem regOperand_bind_eq_ok {check : Reg → Except DecodeError Instr} {v : Byte} (h : (regOperand v).bind check = .ok i) :
    ∃ a, regByte a = v ∧ check a = .ok i := by
  cases hv : regOperand v with
  | error e => simp [hv, Except.bind] at h
  | ok a => exact ⟨a, regByte_of_regOperand hv, by simpa [hv, Except.bind] using h⟩

theorem formatR_eq_ok (h : formatR mk opA = .ok i) : ∃ a, regByte a = opA ∧ mk a = i := by
  rw [formatR_eq_bind] at h
  obtain ⟨a, ha, hi⟩ := regOperand_bind_eq_ok h
  exact ⟨a, ha, Except.ok.inj hi⟩

theorem formatRI_eq_ok (h : formatRI mkImm opA opB = .ok i) : ∃ a, regByte a = opA ∧ mkImm a opB = i :=
  formatR_eq_ok (formatRI_eq_formatR ▸ h)

theorem formatRR_eq_ok (h : formatRR mkPair opA opB = .ok i) :
    ∃ a b, regByte a = opA ∧ regByte b = opB ∧ mkPair a b = i := by
  rw [formatRR_eq_bind] at h
  obtain ⟨a, ha, hcheck⟩ := regOperand_bind_eq_ok h
  obtain ⟨b, hb, hi⟩ := regOperand_bind_eq_ok hcheck
  exact ⟨a, b, ha, hb, Except.ok.inj hi⟩

end

/-- The operand part accepts exactly the operand bytes of the row's instructions, whatever bytes follow the window
(30_encoding.md R81, R84). -/
theorem decodeOperands_eq_ok_iff {o : Op} {opA opB : Byte} (rest : List Byte) {i : Instr} :
    decodeOperands o opA opB = .ok i ↔ i.op = o ∧ operandBytes i = (opA :: opB :: rest).take o.operandCount := by
  constructor
  · intro h
    cases o with
    | hlt | ret =>
      cases h
      exact ⟨rfl, rfl⟩
    | ldi =>
      obtain ⟨a, rfl, rfl⟩ := formatRI_eq_ok h
      exact ⟨rfl, rfl⟩
    | prn | push | pop | call | jmp | jeq | jne =>
      obtain ⟨a, rfl, rfl⟩ := formatR_eq_ok h
      exact ⟨rfl, rfl⟩
    | mul | cmp | add | sub | div =>
      obtain ⟨a, b, rfl, rfl, rfl⟩ := formatRR_eq_ok h
      exact ⟨rfl, rfl⟩
  · rintro ⟨rfl, h⟩
    cases i with
    | hlt | ret => rfl
    | ldi a imm =>
      cases h
      exact formatRI_eq_formatR.trans formatR_regByte
    | prn a | push a | pop a | call a | jmp a | jeq a | jne a =>
      cases h
      exact formatR_regByte
    | mul a b | cmp a b | add a b | sub a b | div a b =>
      cases h
      exact formatRR_regByte

/-! ## What the operand part refuses -/

/-- An answer that is refused exactly when a register operand is above 7, with the first such operand's index. -/
def RefusesFirstBad (operands : List Byte) (answer : Except DecodeError Instr) : Prop :=
  ∀ e, answer = .error e ↔
    ∃ index, (operands.find? fun v => decide (7 < v.toNat)) = some index ∧ e = .registerIndex index

/-- With no register operand to check nothing is refused. -/
theorem RefusesFirstBad.accepted (i : Instr) : RefusesFirstBad [] (.ok i) := by
  intro e
  simp

/-- A check refuses its own operand, or leaves it to the checks after it. -/
theorem RefusesFirstBad.check {v : Byte} {rest : List Byte} {check : Reg → Except DecodeError Instr}
    (h : ∀ a, RefusesFirstBad rest (check a)) : RefusesFirstBad (v :: rest) ((regOperand v).bind check) := by
  intro e
  by_cases hv : 7 < v.toNat
  · have hbind : (regOperand v).bind check = .error (.registerIndex v) := by rw [regOperand_of_le hv]; rfl
    simp [hbind, hv, eq_comm]
  · have hbind : (regOperand v).bind check = check ⟨v.toNat, by omega⟩ := by rw [regOperand_of_lt (by omega)]; rfl
    rw [hbind, List.find?_cons_of_neg (by simpa using hv)]
    exact h _ e

/-- The operand part refuses by the first register operand above 7, opA before opB (40_control_unit.md R115). -/
theorem decodeOperands_refusesFirstBad (o : Op) (opA opB : Byte) :
    RefusesFirstBad (regOperands o opA opB) (decodeOperands o opA opB) := by
  cases o with
  | hlt | ret => exact .accepted _
  | ldi =>
    rw [decodeOperands, formatRI_eq_formatR, formatR_eq_bind]
    exact .check fun _ => .accepted _
  | prn | push | pop | call | jmp | jeq | jne =>
    rw [decodeOperands, formatR_eq_bind]
    exact .check fun _ => .accepted _
  | mul | cmp | add | sub | div =>
    rw [decodeOperands, formatRR_eq_bind]
    exact .check fun _ => .check fun _ => .accepted _

/-! ## The decoder by its opcode byte -/

section

variable {cfg : Config} {opcode opA opB : Byte} {rest : List Byte}

/-- HLT's opcode byte needs no window (40_control_unit.md R113). -/
theorem decode_hlt (cfg : Config) (rest : List Byte) : decode cfg (cfg.opcodeMap .hlt :: rest) = .ok .hlt := by
  simp [decode]

/-- An opcode byte without a row is illegal (40_control_unit.md R114). -/
theorem decode_of_dispatch_none (hne : opcode ≠ cfg.opcodeMap .hlt) (hd : cfg.dispatch opcode = none) :
    decode cfg (opcode :: opA :: opB :: rest) = .error (.illegalOpcode opcode) := by
  simp [decode, hne, hd]

/-- Any other window is read by the row of its opcode byte (30_encoding.md R84). -/
theorem decode_of_dispatch_some {o : Op} (hne : opcode ≠ cfg.opcodeMap .hlt) (hd : cfg.dispatch opcode = some o) :
    decode cfg (opcode :: opA :: opB :: rest) = decodeOperands o opA opB := by
  simp [decode, hne, hd]

/-- Everything the decoder accepts: HLT's opcode byte, or a full window of a dispatched row. -/
theorem decode_eq_ok {bytes : List Byte} {i : Instr} (h : decode cfg bytes = .ok i) :
    (i = .hlt ∧ ∃ rest, bytes = cfg.opcodeMap .hlt :: rest) ∨
    ∃ opcode opA opB rest o, bytes = opcode :: opA :: opB :: rest ∧ cfg.dispatch opcode = some o ∧
      decodeOperands o opA opB = .ok i := by
  match bytes with
  | [] => cases h
  | opcode :: operands =>
    by_cases hhlt : opcode = cfg.opcodeMap .hlt
    · rw [hhlt, decode_hlt] at h
      cases h
      exact .inl ⟨rfl, operands, by rw [hhlt]⟩
    · match operands with
      | [] | [_] => simp [decode, hhlt] at h
      | opA :: opB :: rest =>
        cases hd : cfg.dispatch opcode with
        | none => cases (decode_of_dispatch_none hhlt hd).symm.trans h
        | some o => exact .inr ⟨opcode, opA, opB, rest, o, rfl, hd, (decode_of_dispatch_some hhlt hd).symm.trans h⟩

end

/-- HLT is the one instruction of its row. -/
theorem eq_hlt_of_op : ∀ {i : Instr}, i.op = .hlt → i = .hlt
  | .hlt, _ => rfl

/-- Settles O1: the map gives the row back, and the row's format gives the operands back. -/
theorem decodeInvertsEncode : Obligations.DecodeInvertsEncode := by
  intro cfg i pad hw hi hwindow
  by_cases hhlt : i = .hlt
  · subst hhlt
    exact decode_hlt cfg _
  · have hne : cfg.opcodeMap i.op ≠ cfg.opcodeMap .hlt := fun h => hhlt (eq_hlt_of_op (opcodeMap_inj hw hi rfl h))
    have hlen : 3 ≤ (cfg.opcodeMap i.op :: (operandBytes i ++ pad)).length := hwindow.resolve_left hhlt
    have hops : operandBytes i = (operandBytes i ++ pad).take i.op.operandCount :=
      (List.take_left' (operandBytes_length i)).symm
    rw [encode, List.cons_append]
    match hwin : operandBytes i ++ pad with
    | [] | [_] => simp [hwin] at hlen
    | opA :: opB :: rest =>
      rw [decode_of_dispatch_some hne (dispatch_opcodeMap hw hi)]
      exact (decodeOperands_eq_ok_iff rest).2 ⟨rfl, hwin ▸ hops⟩

/-- Settles O2: the row has the opcode byte, and the accepted operands are the instruction's operand bytes. -/
theorem encodeInvertsDecode : Obligations.EncodeInvertsDecode := by
  intro cfg bytes i h
  rcases decode_eq_ok h with ⟨rfl, rest, rfl⟩ | ⟨opcode, opA, opB, rest, o, rfl, hd, hops⟩
  · exact ⟨rfl, rfl⟩
  · obtain ⟨rfl, hbytes⟩ := (decodeOperands_eq_ok_iff rest).1 hops
    obtain ⟨hdisp, rfl⟩ := dispatch_some hd
    refine ⟨hdisp, ?_⟩
    rw [encode, hbytes, Op.width, Nat.add_comm, List.take_succ_cons]

/-- Settles O3: an opcode byte without a row is refused by itself, one with a row by its first bad register operand. -/
theorem decodeRefusesExactly : Obligations.DecodeRefusesExactly := by
  intro cfg opcode opA opB rest e hw hne
  cases hd : cfg.dispatch opcode with
  | none =>
    have hrow := dispatch_none.1 hd
    rw [decode_of_dispatch_none hne hd]
    constructor
    · rintro ⟨⟩
      exact .inl ⟨rfl, hrow⟩
    · rintro (⟨rfl, _⟩ | ⟨o, _, ho, hop, _⟩)
      · rfl
      · exact absurd hop (hrow o ho)
  | some o =>
    obtain ⟨ho, hop⟩ := dispatch_some hd
    rw [decode_of_dispatch_some hne hd, decodeOperands_refusesFirstBad o opA opB e]
    constructor
    · rintro ⟨index, hbad, he⟩
      exact .inr ⟨o, index, ho, hop, hbad, he⟩
    · rintro (⟨_, hnone⟩ | ⟨p, index, hp, hpop, hbad, he⟩)
      · exact absurd hop (hnone o ho)
      · rw [opcodeMap_inj hw hp ho (hpop.trans hop.symm)] at hbad
        exact ⟨index, hbad, he⟩

end Sys2Proof

namespace Sys2Proof.Machine

/-! ## The loaded image -/

/-- Address `k + j` of an image placed at `k` holds value `j` of the image, and 0 after its end
(30_encoding.md R97). -/
theorem byteAt_ofImage : ∀ (img : List Nat) (k j : Nat), k + img.length ≤ memSize →
    (Memory.ofImage k img).byteAt (k + j) = BitVec.ofNat 8 (img.getD j 0)
  | [], _, _, _ => rfl
  | v :: rest, k, j, hk => by
    have hlen : k + 1 + rest.length ≤ memSize := by simp only [List.length_cons] at hk; omega
    cases j with
    | zero =>
      by_cases hv : BitVec.ofNat 8 v = 0#8
      · simpa [Memory.ofImage, hv] using byteAt_of_lt_wfFrom (ofImage_wfFrom rest (k + 1) hlen) (Nat.lt_succ_self k)
      · simp [Memory.ofImage, Memory.byteAt, hv]
    | succ j =>
      have hrest := byteAt_ofImage rest (k + 1) j hlen
      rw [Nat.add_assoc, Nat.add_comm 1] at hrest
      by_cases hv : BitVec.ofNat 8 v = 0#8 <;> simpa [Memory.ofImage, Memory.byteAt, hv] using hrest

/-- An image of at most 256 byte values is loaded (30_encoding.md R96). -/
theorem loadImage_of_fits (cfg : Config) {img : List Nat} (hlen : img.length ≤ memSize) (hbyte : ∀ v ∈ img, v ≤ 255) :
    loadImage cfg img = some ((State.resetWith cfg).setMem (Memory.ofImage 0 img)) :=
  if_pos ⟨hlen, by simpa using hbyte⟩

/-- Settles O8: every read inside memory is a value of the image or the 0 after it. -/
theorem loadedImageLayout : Obligations.LoadedImageLayout := by
  intro cfg img hlen hbyte
  have hread : ∀ k ≤ 0xFF, memRead (Memory.ofImage 0 img) k = .ok (BitVec.ofNat 8 (img.getD k 0)) := by
    intro k hk
    have hat := byteAt_ofImage img 0 k (by rw [Nat.zero_add]; exact hlen)
    rw [Nat.zero_add] at hat
    rw [memRead_of_lt (Nat.lt_succ_of_le hk), hat]
  refine ⟨_, loadImage_of_fits cfg hlen hbyte, rfl, fun k hk => ?_, fun k hend hk => ?_⟩
  · have hv : img[k] ≤ 255 := hbyte _ (List.getElem_mem hk)
    refine ⟨BitVec.ofNat 8 img[k], ?_, ?_⟩
    · rw [mem_setMem, hread k (by omega), List.getD_eq_getElem _ _ hk]
    · rw [BitVec.toNat_ofNat, Nat.mod_eq_of_lt (by omega)]
  · rw [mem_setMem, hread k hk, List.getD_eq_default _ _ hend]
    rfl

end Sys2Proof.Machine

/-! # The control-unit family: what a step answers (O14 to O19, O28, O44), how execute ends and where
it leaves pc (O21, O23), and the flat pseudocode of the whole step (O22) -/

namespace Sys2Proof.Machine

open Sys2Proof.Reference (badRegister redirectTarget)

/-! ## What a read at pc says of the step -/

section

variable {cfg : Config} {s : State}

theorem memRead_eq_ok {m : Memory} {a : Nat} {v : Byte} (h : memRead m a = .ok v) : a < memSize ∧ m.byteAt a = v := by
  rcases memRead_cases m a with ⟨ha, hr⟩ | ⟨_, hr⟩
  · exact ⟨ha, Except.ok.inj (hr.symm.trans h)⟩
  · cases hr.symm.trans h

/-- The bytes read at pc, pc + 1 and pc + 2 are the fetched window, unless the first is HLT's. -/
theorem fetch_of_reads {opcode opA opB : Byte} (h₀ : memRead s.mem s.pc = .ok opcode)
    (h₁ : memRead s.mem (s.pc + 1) = .ok opA) (h₂ : memRead s.mem (s.pc + 2) = .ok opB)
    (hne : opcode ≠ cfg.opcodeMap .hlt) : fetch cfg s = .ok [opcode, opA, opB] := by
  obtain ⟨_, rfl⟩ := memRead_eq_ok h₀
  obtain ⟨_, rfl⟩ := memRead_eq_ok h₁
  obtain ⟨hlt, rfl⟩ := memRead_eq_ok h₂
  exact fetch_of_window hlt hne

/-- A fault taken where an opcode byte can be read has that byte in its record (60_exceptions.md R203). -/
theorem raise_of_memRead {opcode : Byte} (h : memRead s.mem s.pc = .ok opcode) (c : FaultCause) :
    s.raise c = s.setRun (.faulted { cause := c, pc := s.pc, opcode := some opcode }) := by
  simp [State.raise, State.fetchedOpcode, h]

/-- A fault taken where pc is no address has no opcode in its record (60_exceptions.md R201). -/
theorem raise_of_memSize_le (h : memSize ≤ s.pc) (c : FaultCause) :
    s.raise c = s.setRun (.faulted { cause := c, pc := s.pc, opcode := none }) := by
  simp [State.raise, State.fetchedOpcode, memRead_of_le h]

theorem fetch_of_memSize_le (h : memSize ≤ s.pc) : fetch cfg s = .error (.memory s.pc) := by
  simp [fetch, memRead_of_le h]

/-- A window that is no instruction ends the step in the fault entry of the decode error. -/
theorem stepWith_of_decode_error {bytes : List Byte} {e : DecodeError} (hrun : s.run = .running)
    (hf : fetch cfg s = .ok bytes) (hd : decode cfg bytes = .error e) :
    stepWith cfg s = .next (s.raise (decodeFault s e)) := by
  simp [stepWith, hrun, fetchDecode, hf, hd]

/-- HLT's opcode byte, read at pc, halts the run (40_control_unit.md R113, R121). -/
theorem stepWith_of_memRead_hlt (hrun : s.run = .running) (h : memRead s.mem s.pc = .ok (cfg.opcodeMap .hlt)) :
    stepWith cfg s = .next (s.setRun .halted) := by
  obtain ⟨hpc, hop⟩ := memRead_eq_ok h
  exact stepWith_of_hlt hrun hpc hop

/-- The step executes what the three bytes at pc decode to, HLT among them. -/
theorem stepWith_of_reads {opcode opA opB : Byte} {i : Instr} (hrun : s.run = .running)
    (h₀ : memRead s.mem s.pc = .ok opcode) (h₁ : memRead s.mem (s.pc + 1) = .ok opA)
    (h₂ : memRead s.mem (s.pc + 2) = .ok opB) (hd : decode cfg [opcode, opA, opB] = .ok i) :
    stepWith cfg s = exec i s := by
  by_cases hhlt : opcode = cfg.opcodeMap .hlt
  · subst hhlt
    cases (decode_hlt cfg [opA, opB]).symm.trans hd
    exact stepWith_of_memRead_hlt hrun h₀
  · exact stepWith_of_fetch_ok hrun (fetch_of_reads h₀ h₁ h₂ hhlt) hd

/-- One byte alone decodes to nothing but HLT. -/
theorem decode_singleton_eq_ok {opcode : Byte} {i : Instr} (h : decode cfg [opcode] = .ok i) :
    opcode = cfg.opcodeMap .hlt ∧ i = .hlt := by
  rcases decode_eq_ok h with ⟨hi, rest, hbytes⟩ | ⟨_, _, _, _, _, hbytes, _⟩
  · exact ⟨(List.cons.inj hbytes).1, hi⟩
  · simp at hbytes

/-! ## Every requested step of a run -/

/-- Execute always answers a next state: a halt, a fault entry or a completion (40_control_unit.md R116). -/
theorem exec_isNext (i : Instr) (s : State) : ∃ t, exec i s = .next t := by
  rcases exec_cases i s with ⟨_, he⟩ | ⟨_, _, _, _, he⟩ | ⟨t, he, _⟩
  · exact ⟨_, he⟩
  · exact ⟨_, he⟩
  · exact ⟨t, he⟩

/-- A step is defined exactly while the run is Running (40_control_unit.md R120). -/
theorem stepWith_isNext_iff : (∃ t, stepWith cfg s = .next t) ↔ s.run = .running := by
  rcases stepWith_cases cfg s with ⟨hr, he⟩ | ⟨_, hr, he⟩ | ⟨_, hr, _, he⟩ | ⟨i, hr, _, he⟩
  · simp [hr, he]
  · simp [hr, he]
  · simp [hr, he]
  · simp [hr, he, exec_isNext i s]

/-- A run whose step answers the state it starts from stays there. -/
theorem runFor_of_stepWith_self (h : stepWith cfg s = .next s) : ∀ k, runFor cfg k s = s
  | 0 => rfl
  | k + 1 => (runFor_succ_of_next h k).trans (runFor_of_stepWith_self h k)

end

/-- Settles O14: fetch answers the bytes read, and the decoder accepts HLT's byte alone. -/
theorem stepRunsDecodedInstruction : Obligations.StepRunsDecodedInstruction := by
  refine ⟨fun _ _ _ _ _ => stepWith_of_reads, fun _ _ _ _ _ _ => stepWith_of_reads, ?_⟩
  intro cfg s opcode i hrun h₀ hd
  obtain ⟨rfl, rfl⟩ := decode_singleton_eq_ok hd
  exact stepWith_of_memRead_hlt hrun h₀

/-- Settles O15: every branch of the step in Running answers a next state, and a run that has ended stays put. -/
theorem stepDefinedExactlyWhileRunning : Obligations.StepDefinedExactlyWhileRunning :=
  fun _ _ => ⟨stepWith_isNext_iff, runFor_of_not_running⟩

/-- Settles O16: HLT's byte is fetched alone. -/
theorem hltByteHalts : Obligations.HltByteHalts :=
  fun _ _ => stepWith_of_memRead_hlt

/-- Settles O28: the halt writes the run state alone. -/
theorem hltHalts : Obligations.HltHalts :=
  fun s => ⟨_, exec_hlt s, rfl, rfl, fun _ _ => rfl, rfl, fun _ _ => rfl, rfl⟩

/-- Settles O17: fetch faults at pc itself above 0xFF, and past a non-HLT opcode at 0x100. -/
theorem fetchWindowFaults : Obligations.FetchWindowFaults := by
  intro cfg s hrun
  constructor
  · intro hpc
    have hpc : memSize ≤ s.pc := hpc
    rw [stepWith_of_fetch_error hrun (fetch_of_memSize_le hpc), raise_of_memSize_le hpc]
  · intro opcode htop hread hne
    obtain ⟨hpc, rfl⟩ := memRead_eq_ok hread
    exact stepWith_of_short_window hrun hpc (Nat.add_le_add_right htop 2) hne

/-- The default parameters dispatch every mnemonic (92_eei_decisions.md D3). -/
theorem standard_dispatched (o : Op) : Config.standard.dispatched o = true := by
  cases o <;> rfl

/-- Settles O18: the window is fetched whole, and its opcode byte is looked up in vain. -/
theorem illegalOpcodeFaults : Obligations.IllegalOpcodeFaults := by
  constructor
  · intro cfg s opcode hrun hpc hread hrow
    have hwin : s.pc + 2 < memSize := Nat.lt_succ_of_le (Nat.add_le_add_right hpc 2)
    have hne : opcode ≠ cfg.opcodeMap .hlt := (hrow .hlt rfl).symm
    obtain ⟨_, rfl⟩ := memRead_eq_ok hread
    refine ⟨{ cause := .illegalInstruction, pc := s.pc, opcode := some (s.mem.byteAt s.pc) }, ?_,
      rfl, rfl, rfl, rfl⟩
    rw [stepWith_of_decode_error hrun (fetch_of_window hwin hne) (decode_of_dispatch_none hne (dispatch_none.2 hrow)),
      raise_of_memRead hread]
    rfl
  · rintro cfg o rfl ho p hp hmap
    obtain rfl : p = o :=
      opcodeMap_inj standard_wellFormed (standard_dispatched p) (standard_dispatched o) hmap
    simp only [List.mem_cons, List.not_mem_nil, or_false] at ho
    rcases ho with rfl | rfl | rfl <;> cases hp

/-- Settles O19: the window is fetched whole, its row is found, and the row's register check fails. -/
theorem registerIndexFaults : Obligations.RegisterIndexFaults := by
  intro cfg s o opA opB index hw hrun ho h₀ h₁ h₂ hbad
  have hne : cfg.opcodeMap o ≠ cfg.opcodeMap .hlt := by
    intro h
    cases opcodeMap_inj hw ho rfl h
    cases hbad
  have hd : decode cfg [cfg.opcodeMap o, opA, opB] = .error (.registerIndex index) :=
    (decode_of_dispatch_some hne (dispatch_opcodeMap hw ho)).trans
      ((decodeOperands_refusesFirstBad o opA opB _).2 ⟨index, hbad, rfl⟩)
  refine ⟨{ cause := .register index, pc := s.pc, opcode := some (cfg.opcodeMap o) }, ?_, rfl, rfl, rfl, rfl, rfl⟩
  rw [stepWith_of_decode_error hrun (fetch_of_reads h₀ h₁ h₂ hne) hd, raise_of_memRead h₀]
  rfl

/-! ## How execute ends a run, and where it leaves pc -/

/-- The termination status is the run state as the host sees it (60_exceptions.md R208). -/
theorem terminationStatus_iff (t : State) :
    (terminationStatus t = some .success ↔ t.run = .halted) ∧
    (∀ record, terminationStatus t = some (.failure record) ↔ t.run = .faulted record) ∧
    (terminationStatus t = none ↔ t.run = .running) := by
  cases h : t.run <;> simp [terminationStatus, h]

/-- DIV by a register that holds zero is a fault entry (42_alu.md R157). -/
theorem exec_div_of_zero {a b : Reg} {s : State} (hb : s.reg b = 0) :
    exec (.div a b) s = .next (s.raise (.divideByZero b)) :=
  (exec_div a b s).trans (if_pos (congrArg BitVec.toNat hb))

/-- Settles O21: of the three ways execute can go, one is HLT's and one is the zero divisor's. -/
theorem executeEndsRunExactly : Obligations.ExecuteEndsRunExactly := by
  intro i s hrun
  obtain ⟨t, he, hhalt, hfault⟩ : ∃ t, exec i s = .next t ∧ (t.run = .halted ↔ i = .hlt) ∧
      ((∃ record, t.run = .faulted record) ↔ ∃ a b, i = .div a b ∧ s.reg b = 0) := by
    rcases exec_cases i s with ⟨rfl, he⟩ | ⟨a, b, rfl, hb, he⟩ | ⟨t, he, hc⟩
    · exact ⟨_, he, by simp, by simp⟩
    · exact ⟨_, he, by simp, by simpa using hb⟩
    · have hrun : t.run = .running := hc.run.trans hrun
      refine ⟨t, he, by simp [hrun, hc.ne_hlt], by simp [hrun], ?_⟩
      rintro ⟨a, b, rfl, hb⟩
      cases (exec_div_of_zero hb).symm.trans he
      exact ⟨_, run_raise ..⟩
  obtain ⟨hsuccess, hfailure, hnone⟩ := terminationStatus_iff t
  exact ⟨t, he, hhalt, hfault, hsuccess.trans hhalt, hfailure, hnone⟩

/-- An instruction whose row may redirect is neither HLT nor DIV, so it completes (30_encoding.md R84). -/
theorem exec_completes_of_setsPc {i : Instr} (s : State) (h : i.op.setsPc = .yes ∨ i.op.setsPc = .conditional) :
    ∃ t, exec i s = .next t ∧ Completes i s t := by
  rcases exec_cases i s with ⟨rfl, _⟩ | ⟨_, _, rfl, _⟩ | hc
  · simp [Instr.op, Op.setsPc] at h
  · simp [Instr.op, Op.setsPc] at h
  · exact hc

/-- What each value of the `sets_pc` column says of an instruction (30_encoding.md R84, 40_control_unit.md R117). -/
theorem setsPc_cases (i : Instr) (s : State) :
    (i.op.setsPc = .yes ∧ (redirectTarget i s).isSome) ∨
    (i.op.setsPc = .conditional ∧ i.op.width = 2) ∨
    ((i.op.setsPc = .no ∨ i.op.setsPc = .terminates) ∧ redirectTarget i s = none) := by
  cases i with
  | call | ret | jmp => exact .inl ⟨rfl, rfl⟩
  | jeq | jne => exact .inr (.inl ⟨rfl, rfl⟩)
  | hlt => exact .inr (.inr ⟨.inr rfl, rfl⟩)
  | ldi | prn | mul | cmp | push | pop | add | sub | div => exact .inr (.inr ⟨.inl rfl, rfl⟩)

/-- Where execute leaves pc while the run goes on: at the redirect target, or past the instruction. -/
theorem exec_pc_of_running {i : Instr} {s t : State} (h : exec i s = .next t) (hrun : t.run = .running) :
    t.pc = (redirectTarget i s).elim (s.pc + i.op.width) BitVec.toNat := by
  rcases exec_cases i s with ⟨_, he⟩ | ⟨_, _, _, _, he⟩ | ⟨u, he, hc⟩ <;> cases he.symm.trans h
  · simp at hrun
  · simp at hrun
  · exact hc.pc

/-- Settles O23: a completion's pc is the redirect target or the advance, and `sets_pc` says which. -/
theorem pcSequencing : Obligations.PcSequencing := by
  constructor
  · intro i s t he _ hrun
    have hpc := exec_pc_of_running he hrun
    cases hr : redirectTarget i s with
    | some target => simpa [hr] using hpc
    | none => simpa [hr, Op.width, Nat.add_assoc] using hpc
  · intro i s
    rcases setsPc_cases i s with ⟨hset, hsome⟩ | ⟨hset, hwidth⟩ | ⟨hset, hnone⟩
    · obtain ⟨t, he, hc⟩ := exec_completes_of_setsPc s (.inl hset)
      refine ⟨fun target hr => ⟨t, he, by simp [hc.pc, hr], hc.run⟩, fun _ => hsome, ?_, ?_⟩ <;> simp [hset]
    · obtain ⟨t, he, hc⟩ := exec_completes_of_setsPc s (.inr hset)
      refine ⟨fun target hr => ⟨t, he, by simp [hc.pc, hr], hc.run⟩, ?_, ?_, ?_⟩
      · simp [hset]
      · simp [hset]
      · exact fun _ hr => ⟨t, he, by simp [hc.pc, hr, hwidth]⟩
    · refine ⟨by simp [hnone], ?_, fun _ => hnone, ?_⟩ <;> rcases hset with hset | hset <;> simp [hset]

/-- Settles O44: the JMP's step answers the state it starts from, which is Running. -/
theorem jumpToItselfNeverEnds : Obligations.JumpToItselfNeverEnds := by
  intro cfg a s hw hrun hpc h₀ h₁ ha
  have h₂ : memRead s.mem (s.pc + 2) = .ok (s.mem.byteAt (s.pc + 2)) :=
    memRead_of_lt (Nat.lt_succ_of_le (Nat.add_le_add_right hpc 2))
  have hd : decode cfg (encode cfg (.jmp a) ++ [s.mem.byteAt (s.pc + 2)]) = .ok (.jmp a) :=
    decodeInvertsEncode cfg (.jmp a) _ hw rfl (.inr (Nat.le_refl 3))
  have hstep : stepWith cfg s = .next s := by
    rw [stepWith_of_reads hrun h₀ h₁ h₂ hd, exec_jmp, ha]
    rfl
  have hstay := runFor_of_stepWith_self hstep
  exact fun k => ⟨hstay k, fun j _ => by simp [hstay j, notFaulted, hrun]⟩

end Sys2Proof.Machine

namespace Sys2Proof

/-- EXT_ALU is asked for by ADD, SUB and DIV alone (92_eei_decisions.md D3). -/
theorem dispatched_iff {cfg : Config} {o : Op} :
    cfg.dispatched o = true ↔ (o = .add ∨ o = .sub ∨ o = .div → cfg.extAlu = true) := by
  cases o <;> simp [Config.dispatched]

/-- The opcode byte of one dispatched row is no other row's, under a well-formed map. -/
theorem opcode_toNat_eq_iff {cfg : Config} (hw : cfg.wellFormed = true) {p q : Op} (hp : cfg.dispatched p = true)
    (hq : cfg.dispatched q = true) : (cfg.opcodeMap p).toNat = (cfg.opcodeMap q).toNat ↔ p = q :=
  ⟨fun h => opcodeMap_inj hw hp hq (BitVec.eq_of_toNat_eq h), fun h => by rw [h]⟩

/-- Operands that are accepted are none of them above 7. -/
theorem RefusesFirstBad.find?_eq_none {operands : List Byte} {i : Instr} (h : RefusesFirstBad operands (.ok i)) :
    (operands.find? fun v => decide (7 < v.toNat)) = none := by
  cases hbad : operands.find? fun v => decide (7 < v.toNat) with
  | none => rfl
  | some index => cases (h (.registerIndex index)).2 ⟨index, hbad, rfl⟩

end Sys2Proof

namespace Sys2Proof.Reference

open Sys2Proof.Machine

/-! ## The flat pseudocode, case by case -/

/-- The execute rule of a row past its register check, as the flat pseudocode has it (40_control_unit.md R119): `a` and
`b` are the operand bytes. -/
def executed (o : Op) (m : Flat) (a b : Nat) : Flat :=
  let va := m.x a
  let vb := m.x b
  let sp := m.x 7
  match o with
  | .hlt => { m with run := .halted }
  | .ldi => { m.setX a b with pc := m.pc + 3 }
  | .prn => { m with out := m.out ++ [va], pc := m.pc + 2 }
  | .mul => { m.setX a (va * vb % 256) with pc := m.pc + 3 }
  | .cmp => { m with e := va == vb, l := decide (va < vb), g := decide (va > vb), pc := m.pc + 3 }
  | .push => { (m.setX 7 ((sp + 255) % 256)).setMem ((sp + 255) % 256) va with pc := m.pc + 2 }
  | .pop => { (m.setX 7 ((sp + 1) % 256)).setX a (m.mem sp) with pc := m.pc + 2 }
  | .call => { (m.setX 7 ((sp + 255) % 256)).setMem ((sp + 255) % 256) (m.pc + 2) with pc := va }
  | .ret => { m.setX 7 ((sp + 1) % 256) with pc := m.mem sp }
  | .jmp => { m with pc := va }
  | .jeq => { m with pc := if m.e then va else m.pc + 2 }
  | .jne => { m with pc := if m.e then m.pc + 2 else va }
  | .add => { m.setX a ((va + vb) % 256) with pc := m.pc + 3 }
  | .sub => { m.setX a ((va + 256 - vb) % 256) with pc := m.pc + 3 }
  | .div =>
    if vb = 0 then m.raise { code := 3, pc := m.pc, opcode := some (m.mem m.pc), divisorRegister := some b }
    else { m.setX a (va / vb) with pc := m.pc + 3 }

section

variable {cfg : Config} {m : Flat}

theorem step_of_pc_out (h : 0xFF < m.pc) :
    step cfg m = m.raise { code := 1, subKind := some .memory, pc := m.pc, address := some m.pc } :=
  if_pos h

theorem step_of_hlt (hpc : m.pc ≤ 0xFF) (hop : m.mem m.pc = (cfg.opcodeMap .hlt).toNat) :
    step cfg m = { m with run := .halted } := by
  simp [step, Nat.not_lt.2 hpc, hop]

theorem step_of_short_window (hpc : m.pc ≤ 0xFF) (htop : 0xFE ≤ m.pc)
    (hne : m.mem m.pc ≠ (cfg.opcodeMap .hlt).toNat) :
    step cfg m = m.raise
      { code := 1, subKind := some .memory, pc := m.pc, opcode := some (m.mem m.pc), address := some 0x100 } := by
  rcases Nat.eq_or_lt_of_le htop with h | h
  · simp [step, ← h, h ▸ hne]
  · have h : m.pc = 0xFF := by omega
    simp [step, h, h ▸ hne]

theorem step_of_no_row (hpc : m.pc ≤ 0xFD)
    (hne : ∀ o, cfg.dispatched o = true → m.mem m.pc ≠ (cfg.opcodeMap o).toNat) :
    step cfg m = m.raise { code := 2, pc := m.pc, opcode := some (m.mem m.pc) } := by
  have h₀ : ¬ 0xFF < m.pc := by omega
  have h₁ : ¬ 0xFF < m.pc + 1 := by omega
  have h₂ : ¬ 0xFF < m.pc + 2 := by omega
  by_cases hx : cfg.extAlu = true <;> simp [step, h₀, h₁, h₂, hne, hx, dispatched_iff]

/-- The pseudocode at a row's opcode byte: its register check, then its execute rule. -/
theorem step_of_row (hw : cfg.wellFormed = true) (hpc : m.pc ≤ 0xFD) {o : Op} (ho : cfg.dispatched o = true)
    (hne : o ≠ .hlt) (hop : m.mem m.pc = (cfg.opcodeMap o).toNat) {opA opB : Byte}
    (hA : m.mem (m.pc + 1) = opA.toNat) (hB : m.mem (m.pc + 2) = opB.toNat) :
    step cfg m = m.checked (m.mem m.pc) ((regOperands o opA opB).map BitVec.toNat)
      (executed o m opA.toNat opB.toNat) := by
  have h₀ : ¬ 0xFF < m.pc := by omega
  have h₁ : ¬ 0xFF < m.pc + 1 := by omega
  have h₂ : ¬ 0xFF < m.pc + 2 := by omega
  have hrow : ∀ p, cfg.dispatched p = true → (m.mem m.pc = (cfg.opcodeMap p).toNat ↔ o = p) := fun p hp => by
    rw [hop, opcode_toNat_eq_iff hw ho hp]
  cases o with
  | hlt => exact absurd rfl hne
  | ret => simp [step, h₀, h₁, h₂, hrow, dispatched_iff, regOperands, executed, Flat.checked]
  | ldi | prn | mul | cmp | push | pop | call | jmp | jeq | jne =>
    simp [step, h₀, h₁, h₂, hA, hB, hrow, dispatched_iff, regOperands, executed]
  | add | sub | div =>
    have hx : cfg.extAlu = true := ho
    simp [step, h₀, h₁, h₂, hA, hB, hrow, dispatched_iff, hx, regOperands, executed]

/-- The pseudocode's check of operands as numbers is the check of the operand bytes. -/
theorem find?_map_toNat (ops : List Byte) :
    (ops.map BitVec.toNat).find? (fun f => decide (7 < f)) =
      (ops.find? fun v => decide (7 < v.toNat)).map BitVec.toNat :=
  List.find?_map ..

/-- A register operand above 7 is the fault of the check, and the execute rule does not run. -/
theorem checked_of_bad {ops : List Byte} {index : Byte}
    (h : (ops.find? fun v => decide (7 < v.toNat)) = some index) (op : Nat) (x : Flat) :
    m.checked op (ops.map BitVec.toNat) x = m.raise
      { code := 1, subKind := some .register, pc := m.pc, opcode := some op, index := some index.toNat } := by
  simp only [Flat.checked, find?_map_toNat, h, Option.map_some]

/-- With no register operand above 7 the execute rule runs. -/
theorem checked_of_good {ops : List Byte} (h : (ops.find? fun v => decide (7 < v.toNat)) = none) (op : Nat)
    (x : Flat) : m.checked op (ops.map BitVec.toNat) x = x := by
  simp only [Flat.checked, find?_map_toNat, h, Option.map_none]

end

/-! ## The view of each update of the state -/

section

variable (s : State)

@[simp] theorem view_reg (r : Reg) : (view s).x r.val = (s.reg r).toNat := by
  simp [view, r.isLt]

@[simp] theorem view_sp : (view s).x 7 = s.spVal.toNat := view_reg s Reg.sp

@[simp] theorem view_pc : (view s).pc = s.pc := rfl
@[simp] theorem view_e : (view s).e = s.flags.equal := rfl
@[simp] theorem view_mem (a : Nat) : (view s).mem a = (s.mem.byteAt a).toNat := rfl

theorem view_setPc (p : Nat) : view (s.setPc p) = { view s with pc := p } := rfl

theorem view_emit (v : Byte) : view (s.emit v) = { view s with out := (view s).out ++ [v.toNat] } := by
  simp [view]

theorem view_setFlags (f : Flags) :
    view (s.setFlags f) = { view s with e := f.equal, l := f.lessThan, g := f.greaterThan } := rfl

/-- A fault entry where an opcode byte stands at pc. -/
theorem view_raise_of_lt (hpc : s.pc < memSize) (c : FaultCause) :
    view (s.raise c) =
      (view s).raise (viewRecord { cause := c, pc := s.pc, opcode := some (s.mem.byteAt s.pc) }) := by
  rw [raise_of_memRead (memRead_of_lt hpc)]
  rfl

theorem view_setReg (r : Reg) (v : Byte) : view (s.setReg r v) = (view s).setX r.val v.toNat := by
  have hx : (view (s.setReg r v)).x = ((view s).setX r.val v.toNat).x := by
    funext j
    by_cases hj : j < 8 <;> by_cases hr : j = r.val <;> simp [view, Flat.setX, hj, hr, Fin.ext_iff, eq_comm]
  exact congrArg (fun x => { view s with x := x }) hx

theorem view_setMem_put {m : Memory} (hm : m.wf = true) (hs : s.mem = m) (a : Nat) (v : Byte) :
    view (s.setMem (m.put a v)) = (view s).setMem a v.toNat := by
  have hmem : (view (s.setMem (m.put a v))).mem = ((view s).setMem a v.toNat).mem := by
    funext b
    by_cases hb : a = b
    · simp [view, Flat.setMem, byteAt_put_of_wf hm, hb]
    · simp [view, Flat.setMem, hs, byteAt_put_of_wf hm, hb, Ne.symm hb]
  exact congrArg (fun mem => { view s with mem := mem }) hmem

end

/-! ## Execute is the execute rule -/

@[simp] theorem regByte_toNat (r : Reg) : (regByte r).toNat = r.val := by
  have := r.isLt
  simp only [regByte, BitVec.toNat_ofNat]
  omega

theorem toNat_sub_one (v : Byte) : (v - 1#8).toNat = (v.toNat + 255) % 256 := by
  bv_omega

theorem wrapByte_mul (v w : Byte) : (wrapByte (v.toNat * w.toNat)).toNat = v.toNat * w.toNat % 256 := by
  exact_mod_cast wrapByte_natCast (v.toNat * w.toNat)

theorem wrapByte_add (v w : Byte) : (wrapByte (v.toNat + w.toNat)).toNat = (v.toNat + w.toNat) % 256 := by
  exact_mod_cast wrapByte_natCast (v.toNat + w.toNat)

theorem wrapByte_sub (v w : Byte) : (wrapByte (v.toNat - w.toNat)).toNat = (v.toNat + 256 - w.toNat) % 256 := by
  rw [wrapByte_toNat]
  have := w.isLt
  omega

theorem wrapByte_div (v w : Byte) : (wrapByte (v.toNat / w.toNat : Nat)).toNat = v.toNat / w.toNat := by
  rw [wrapByte_natCast]
  exact Nat.mod_eq_of_lt ((Nat.div_le_self ..).trans_lt v.isLt)

/-- The state a push leaves, seen as numbers (43_stack.md R170). -/
theorem view_pushed {s : State} (hm : s.mem.wf = true) (v : Byte) :
    view ((s.setReg Reg.sp (s.spVal - 1#8)).setMem (s.mem.put (s.spVal - 1#8).toNat v)) =
      ((view s).setX 7 (((view s).x 7 + 255) % 256)).setMem (((view s).x 7 + 255) % 256) v.toNat := by
  rw [view_setMem_put (s.setReg ..) hm rfl, view_setReg, toNat_sub_one, view_sp]
  rfl

/-- The state a pop leaves, seen as numbers (43_stack.md R171). -/
theorem view_popped (s : State) :
    view (s.setReg Reg.sp (s.spVal + 1#8)) = (view s).setX 7 (((view s).x 7 + 1) % 256) := by
  rw [view_setReg, BitVec.toNat_add, view_sp]
  rfl

/-- Execute of an instruction is its row's execute rule at its operand bytes, where its window is in memory. -/
theorem view_exec {s : State} (hm : s.mem.wf = true) (hpc : s.pc ≤ 0xFD) {i : Instr} {opA opB : Byte}
    (hops : operandBytes i = [opA, opB].take i.op.operandCount) :
    ∃ t, exec i s = .next t ∧ view t = executed i.op (view s) opA.toNat opB.toNat := by
  cases i with
  | hlt => exact ⟨_, exec_hlt s, rfl⟩
  | ldi a imm =>
    cases hops
    exact ⟨_, exec_ldi .., by simp [executed, Instr.op, view_setPc, view_setReg]⟩
  | prn a =>
    cases hops
    exact ⟨_, exec_prn .., by simp [executed, Instr.op, view_setPc, view_emit]⟩
  | mul a b =>
    cases hops
    exact ⟨_, exec_mul .., by simp [executed, Instr.op, view_setPc, view_setReg, wrapByte_mul]⟩
  | cmp a b =>
    cases hops
    exact ⟨_, exec_cmp .., by simp [executed, Instr.op, view_setPc, view_setFlags, compareFlags]⟩
  | push a =>
    cases hops
    exact ⟨_, exec_push .., by rw [view_setPc, view_pushed hm]; simp [executed, Instr.op]⟩
  | pop a =>
    cases hops
    exact ⟨_, exec_pop .., by rw [view_setPc, view_setReg, view_popped]; simp [executed, Instr.op]⟩
  | call a =>
    cases hops
    have hret : (BitVec.ofNat 8 (s.pc + 2)).toNat = s.pc + 2 := by
      rw [BitVec.toNat_ofNat]
      omega
    exact ⟨_, exec_call .., by rw [view_setPc, view_pushed hm, hret]; simp [executed, Instr.op]⟩
  | ret => exact ⟨_, exec_ret .., by rw [view_setPc, view_popped]; simp [executed, Instr.op]⟩
  | jmp a =>
    cases hops
    exact ⟨_, exec_jmp .., by simp [executed, Instr.op, view_setPc]⟩
  | jeq a =>
    cases hops
    exact ⟨_, exec_jeq .., by simp [executed, Instr.op, view_setPc]⟩
  | jne a =>
    cases hops
    exact ⟨_, exec_jne .., by simp [executed, Instr.op, view_setPc]⟩
  | add a b =>
    cases hops
    exact ⟨_, exec_add .., by simp [executed, Instr.op, view_setPc, view_setReg, wrapByte_add]⟩
  | sub a b =>
    cases hops
    exact ⟨_, exec_sub .., by simp [executed, Instr.op, view_setPc, view_setReg, wrapByte_sub]⟩
  | div a b =>
    cases hops
    by_cases hb : (s.reg b).toNat = 0
    · refine ⟨_, (exec_div ..).trans (if_pos hb), ?_⟩
      rw [view_raise_of_lt s (Nat.lt_of_le_of_lt hpc (by decide))]
      simp only [executed, Instr.op, regByte_toNat, view_reg, hb, if_true]
      rfl
    · exact ⟨_, (exec_div ..).trans (if_neg hb), by
        rw [view_setPc, view_setReg, wrapByte_div]; simp [executed, Instr.op, hb]⟩

/-! ## The step is the flat step -/

section

variable {cfg : Config} {s : State}

/-- A whole window of a dispatched row: the register check decides on both sides, and execute is the execute rule. -/
theorem view_stepWith_of_row (hw : cfg.wellFormed = true) (hm : s.mem.wf = true) (hrun : s.run = .running)
    (hpc : s.pc ≤ 0xFD) (hne : s.mem.byteAt s.pc ≠ cfg.opcodeMap .hlt) {o : Op}
    (hd : cfg.dispatch (s.mem.byteAt s.pc) = some o) :
    ∃ t, stepWith cfg s = .next t ∧ view t = step cfg (view s) := by
  obtain ⟨ho, hop⟩ := dispatch_some hd
  have hf := fetch_of_window (Nat.lt_succ_of_le (Nat.add_le_add_right hpc 2)) hne
  have hdec := decode_of_dispatch_some (opA := s.mem.byteAt (s.pc + 1)) (opB := s.mem.byteAt (s.pc + 2)) (rest := [])
    hne hd
  have hrefuse := decodeOperands_refusesFirstBad o (s.mem.byteAt (s.pc + 1)) (s.mem.byteAt (s.pc + 2))
  rw [step_of_row (m := view s) (opA := s.mem.byteAt (s.pc + 1)) (opB := s.mem.byteAt (s.pc + 2)) hw hpc ho
    (fun h => hne (h ▸ hop.symm)) (congrArg BitVec.toNat hop.symm) rfl rfl]
  cases hops : decodeOperands o (s.mem.byteAt (s.pc + 1)) (s.mem.byteAt (s.pc + 2)) with
  | error e =>
    obtain ⟨index, hbad, rfl⟩ := (hrefuse e).1 hops
    refine ⟨_, stepWith_of_decode_error hrun hf (hdec.trans hops), ?_⟩
    rw [checked_of_bad hbad, view_raise_of_lt s (Nat.lt_of_le_of_lt hpc (by decide))]
    rfl
  | ok i =>
    rw [checked_of_good (hops ▸ hrefuse).find?_eq_none, stepWith_of_fetch_ok hrun hf (hdec.trans hops)]
    obtain ⟨rfl, hbytes⟩ := (decodeOperands_eq_ok_iff []).1 hops
    exact view_exec hm hpc hbytes

/-- Settles O22: fetch goes the same four ways on both sides, and a whole window is looked up by its opcode byte. -/
theorem stepMatchesFlatPseudocode : Obligations.StepMatchesFlatPseudocode := by
  intro cfg s hw hm hrun
  rcases fetch_cases cfg s with ⟨hout, hf⟩ | ⟨hpc, hop, hf⟩ | ⟨hpc, htop, hne, hf⟩ | ⟨hwin, hne, hf⟩
  · refine ⟨_, stepWith_of_fetch_error hrun hf, ?_⟩
    rw [step_of_pc_out (m := view s) hout, raise_of_memSize_le hout]
    rfl
  · refine ⟨_, stepWith_of_hlt hrun hpc hop, ?_⟩
    rw [step_of_hlt (m := view s) (Nat.le_of_lt_succ hpc) (congrArg BitVec.toNat hop)]
    rfl
  · refine ⟨_, stepWith_of_fetch_error hrun hf, ?_⟩
    rw [step_of_short_window (m := view s) (Nat.le_of_lt_succ hpc) (Nat.sub_le_of_le_add htop)
      (fun h => hne (BitVec.eq_of_toNat_eq h)), view_raise_of_lt s hpc]
    rfl
  · have hpc : s.pc ≤ 0xFD := Nat.le_of_lt_succ (Nat.lt_of_add_lt_add_right hwin)
    cases hd : cfg.dispatch (s.mem.byteAt s.pc) with
    | none =>
      refine ⟨_, stepWith_of_decode_error hrun hf (decode_of_dispatch_none hne hd), ?_⟩
      rw [step_of_no_row (m := view s) hpc fun o ho h => dispatch_none.1 hd o ho (BitVec.eq_of_toNat_eq h.symm),
        view_raise_of_lt s (by omega)]
      rfl
    | some o => exact view_stepWith_of_row hw hm hrun hpc hne hd

end

end Sys2Proof.Reference

/-! # The load and output family: LDI loads its immediate (O29), PRN emits its register (O30) -/

namespace Sys2Proof.Machine

/-! ## Frames of the updates -/

section

variable {s t : State} {written : List Reg} {stored : List Nat}

/-- A register write changes that register alone (10_state.md R21). -/
theorem keepsRegs_setReg (s : State) (r : Reg) (v : Byte) : KeepsRegs s (s.setReg r v) [r] :=
  fun q hq => reg_setReg_of_ne s r q v (List.ne_of_not_mem_cons hq).symm

/-- A state with the same registers keeps every one of them. -/
theorem keepsRegs_of_reg_eq (h : ∀ r, t.reg r = s.reg r) : KeepsRegs s t written :=
  fun r _ => h r

/-- A state with the same memory reads the same at every address. -/
theorem keepsMem_of_mem_eq (h : t.mem = s.mem) : KeepsMem s t stored :=
  fun a _ => congrArg (memRead · a) h

/-- The sequencer's write of pc changes no register (40_control_unit.md R116). -/
theorem KeepsRegs.setPc (h : KeepsRegs s t written) (p : Nat) : KeepsRegs s (t.setPc p) written :=
  fun r hr => (reg_setPc t r p).trans (h r hr)

end

/-! ## LDI and PRN -/

/-- Settles O29: LDI writes its destination and pc, and nothing else. -/
theorem ldiLoadsImmediate : Obligations.LdiLoadsImmediate := by
  intro a imm s
  have hdest : ((s.setReg a imm).setPc (s.pc + 3)).reg a = imm := by rw [reg_setPc, reg_setReg_self]
  have hregs : KeepsRegs s ((s.setReg a imm).setPc (s.pc + 3)) [a] := (keepsRegs_setReg s a imm).setPc _
  exact ⟨_, exec_ldi a s imm, hdest, hregs, rfl, rfl, keepsMem_of_mem_eq rfl, rfl, rfl⟩

/-- Settles O30: PRN writes the output and pc, and nothing else. -/
theorem prnEmitsRegister : Obligations.PrnEmitsRegister := by
  intro a s
  exact ⟨_, exec_prn a s, out_emit .., keepsRegs_of_reg_eq fun _ => rfl, rfl, rfl, keepsMem_of_mem_eq rfl, rfl⟩

end Sys2Proof.Machine

/-! # The ALU family: MUL, ADD and SUB (O31), CMP (O32), DIV by a nonzero and by a zero register (O33, O34), an
unknown operator tag (O40) -/

namespace Sys2Proof.Machine

open Sys2Proof.Reference (wrapByte_mul wrapByte_add wrapByte_sub wrapByte_div)

/-! ## MUL, ADD, SUB and DIV by a nonzero register -/

/-- An instruction that answers a result byte for its destination and advances pc by 3 changes nothing else
(42_alu.md R150, R151). -/
theorem completes_with_result {i : Instr} {s : State} {a : Reg} {v : Byte} {result : Nat}
    (he : exec i s = .next ((s.setReg a v).setPc (s.pc + 3))) (hv : v.toNat = result) :
    ∃ t, exec i s = .next t ∧ (t.reg a).toNat = result ∧ KeepsRegs s t [a] ∧ t.pc = s.pc + 3 ∧ t.flags = s.flags ∧
      KeepsMem s t [] ∧ t.run = s.run ∧ t.out = s.out := by
  have hdest : (((s.setReg a v).setPc (s.pc + 3)).reg a).toNat = result := by rw [reg_setPc, reg_setReg_self, hv]
  exact ⟨_, he, hdest, (keepsRegs_setReg s a v).setPc _, rfl, rfl, keepsMem_of_mem_eq rfl, rfl, rfl⟩

/-- Settles O31: each of the three writes its exact result, wrapped to a byte. -/
theorem mulAddSubWrap : Obligations.MulAddSubWrap := by
  rintro a b s i result (⟨rfl, rfl⟩ | ⟨rfl, rfl⟩ | ⟨rfl, rfl⟩)
  · exact completes_with_result (exec_mul a b s) (wrapByte_mul ..)
  · exact completes_with_result (exec_add a b s) (wrapByte_add ..)
  · exact completes_with_result (exec_sub a b s) (wrapByte_sub ..)

/-- DIV by a register that does not hold zero writes the quotient (42_alu.md R157). -/
theorem exec_div_of_ne_zero {a b : Reg} {s : State} (hb : s.reg b ≠ 0) :
    exec (.div a b) s =
      .next ((s.setReg a (wrapByte ((s.reg a).toNat / (s.reg b).toNat : Nat))).setPc (s.pc + 3)) :=
  (exec_div a b s).trans (if_neg fun h => hb (BitVec.eq_of_toNat_eq h))

/-- Settles O33: the quotient fits in a byte, so nothing wraps. -/
theorem divQuotient : Obligations.DivQuotient :=
  fun _ _ _ hb => completes_with_result (exec_div_of_ne_zero hb) (wrapByte_div ..)

/-! ## CMP -/

/-- Settles O32: CMP writes the three unsigned comparisons into the flags, and pc. -/
theorem cmpComparesUnsigned : Obligations.CmpComparesUnsigned := by
  intro a b s
  obtain ⟨heq, hlt, hgt⟩ := compareFlags_eq (s.reg a) (s.reg b)
  refine ⟨_, exec_cmp a b s, ?equal, ?less, ?greater, keepsRegs_of_reg_eq fun _ => rfl, rfl, keepsMem_of_mem_eq rfl,
    rfl, rfl⟩
  case equal => rw [flags_setPc, flags_setFlags, heq, decide_eq_true_iff, BitVec.toNat_inj]
  case less => rw [flags_setPc, flags_setFlags, hlt, decide_eq_true_iff]
  case greater => rw [flags_setPc, flags_setFlags, hgt, decide_eq_true_iff]

/-! ## The ALU's faults -/

/-- Settles O34: a zero divisor is a fault entry, whose record has the byte at pc and the divisor register. -/
theorem divByZeroFaults : Obligations.DivByZeroFaults := by
  intro a b s opcode hb hop
  have he := exec_div_of_zero (a := a) hb
  rw [raise_of_memRead hop] at he
  exact ⟨_, _, he, run_setRun .., rfl, rfl, rfl, rfl, rfl, keepsRegs_of_reg_eq (reg_setRun s · _), rfl, rfl,
    keepsMem_of_mem_eq rfl, rfl⟩

/-- A tag outside the five is a fault entry, whatever the operands hold (42_alu.md R152). -/
theorem execAlu_other (o : Op) (tag : Nat) (a b : Reg) (s : State) :
    execAlu o (.other tag) a b s = .next (s.raise .unsupportedOperation) := rfl

/-- Settles O40: the fault entry writes nothing but the record. -/
theorem unknownAluTagFaults : Obligations.UnknownAluTagFaults :=
  fun o tag a b s => ⟨_, execAlu_other o tag a b s, rfl, rfl, rfl⟩

end Sys2Proof.Machine

/-! # The stack family: PUSH (O35), POP (O36), RET (O38), and the last-in first-out law (O41) -/

namespace Sys2Proof.Machine

open Sys2Proof.Reference (StackOp stackRun)

/-! ## PUSH, POP and RET -/

section

variable {s t : State} {written : List Reg}

/-- One more register write adds its register to the written ones (10_state.md R21). -/
theorem KeepsRegs.setReg (h : KeepsRegs s t written) (r : Reg) (v : Byte) :
    KeepsRegs s (t.setReg r v) (r :: written) := by
  intro q hq
  obtain ⟨hqr, hq⟩ := not_or.1 (List.mem_cons.not.1 hq)
  rw [reg_setReg_of_ne t r q v (Ne.symm hqr), h q hq]

/-- A memory write changes no register. -/
theorem KeepsRegs.setMem (h : KeepsRegs s t written) (m : Memory) : KeepsRegs s (t.setMem m) written :=
  fun r hr => (reg_setMem t r m).trans (h r hr)

/-- A state whose memory differs by one stored byte reads the same at every other address (20_memory.md R54). -/
theorem keepsMem_of_mem_eq_put {a : Nat} {v : Byte} (hm : s.mem.wf = true) (h : t.mem = s.mem.put a v) :
    KeepsMem s t [a] :=
  fun b hb => by rw [h, memRead_put_of_ne hm (List.ne_of_not_mem_cons hb)]

end

/-- SP after a pop, as a number (43_stack.md R171). -/
theorem sp_popped (s : State) :
    ((s.setReg Reg.sp (s.spVal + 1#8)).reg 7).toNat = ((s.reg 7).toNat + 1) % 256 :=
  (congrArg BitVec.toNat (reg_setReg_self s 7 _)).trans (BitVec.toNat_add (s.reg 7) 1#8)

/-- An instruction that pushes `v` and goes on at `p` changes nothing else (43_stack.md R170). -/
theorem completes_with_push {i : Instr} {s : State} {v : Byte} {p : Nat} (hm : s.mem.wf = true)
    (he : exec i s = .next (((s.setReg Reg.sp (s.spVal - 1#8)).setMem (s.mem.put (s.spVal - 1#8).toNat v)).setPc p)) :
    ∃ t, exec i s = .next t ∧ (t.reg 7).toNat = ((s.reg 7).toNat + 255) % 256 ∧
      memRead t.mem (s.spVal - 1#8).toNat = .ok v ∧ KeepsMem s t [(s.spVal - 1#8).toNat] ∧ KeepsRegs s t [7] ∧
      t.pc = p ∧ t.flags = s.flags ∧ t.run = s.run ∧ t.out = s.out := by
  refine ⟨_, he, ?sp, memRead_put_self hm (byte_lt_memSize _) v, keepsMem_of_mem_eq_put hm rfl,
    ((keepsRegs_setReg s 7 _).setMem _).setPc p, rfl, rfl, rfl, rfl⟩
  case sp => exact (congrArg BitVec.toNat (reg_setReg_self s 7 _)).trans (Reference.toNat_sub_one (s.reg 7))

/-- Settles O35: PUSH pushes the value its register held and goes on at pc + 2. -/
theorem pushStoresBelowSp : Obligations.PushStoresBelowSp :=
  fun a s hm => completes_with_push hm (exec_push a s)

/-- Settles O36: the destination is written after SP, so SP's new value stays exactly where R7 is not the
destination. -/
theorem popLoadsFromSp : Obligations.PopLoadsFromSp := by
  intro a s
  refine ⟨_, exec_pop a s, ?dest, ?sp, ((keepsRegs_setReg s 7 _).setReg a _).setPc _, rfl, rfl,
    keepsMem_of_mem_eq rfl, rfl, rfl⟩
  case dest => rw [reg_setPc, reg_setReg_self]; exact memRead_of_lt (byte_lt_memSize _)
  case sp =>
    intro ha
    rw [reg_setPc, reg_setReg_of_ne _ _ _ _ ha, sp_popped]

/-- Settles O38: RET's target is the popped byte. -/
theorem retPopsPc : Obligations.RetPopsPc := by
  intro s
  exact ⟨_, _, exec_ret s, memRead_of_lt (byte_lt_memSize _), rfl, sp_popped s, (keepsRegs_setReg s 7 _).setPc _, rfl,
    keepsMem_of_mem_eq rfl, rfl, rfl⟩

/-! ## The last-in first-out law -/

/-- A PUSH of the list stack succeeds below a depth of 256 and adds its value at the front. -/
theorem stackRun_push_eq_some {a : Reg} {rest : List StackOp} {x : Reg → Byte} {stack : List Byte}
    {answer : (Reg → Byte) × List Byte} (h : stackRun (.push a :: rest) x stack = some answer) :
    stack.length < 256 ∧ stackRun rest x (x a :: stack) = some answer := by
  rw [stackRun] at h
  split at h
  · exact ⟨‹_›, h⟩
  · cases h

/-- A POP of the list stack succeeds when there is a newest value, and takes it. -/
theorem stackRun_pop_eq_some {a : Reg} {rest : List StackOp} {x : Reg → Byte} {stack : List Byte}
    {answer : (Reg → Byte) × List Byte} (h : stackRun (.pop a :: rest) x stack = some answer) :
    ∃ v older, stack = v :: older ∧ stackRun rest (fun r => if r = a then v else x r) older = some answer := by
  cases stack with
  | nil => cases h
  | cons v older => exact ⟨v, older, rfl, h⟩

theorem execList_cons_of_next {i : Instr} {s t : State} (h : exec i s = .next t) (rest : List Instr) :
    execList (i :: rest) s = execList rest t := by
  rw [execList, h]

/-- The machine state represents the registers `x` and the list stack `stack`: every register but SP holds its value, SP
is below `base` by the depth, and the values stand in memory from SP up, newest first. -/
structure HoldsStack (base : Byte) (x : Reg → Byte) (stack : List Byte) (s : State) : Prop where
  wf : s.mem.wf = true
  regs : ∀ r, r ≠ 7 → s.reg r = x r
  sp : s.spVal = base - BitVec.ofNat 8 stack.length
  slots : ∀ (k : Nat) (h : k < stack.length), memRead s.mem (s.spVal + BitVec.ofNat 8 k).toNat = .ok stack[k]

/-- Every state with canonical memory represents its own registers and the empty stack. -/
theorem HoldsStack.empty {s : State} (hm : s.mem.wf = true) : HoldsStack s.spVal s.reg [] s :=
  ⟨hm, fun _ _ => rfl, (BitVec.sub_zero _).symm, nofun⟩

/-- One slot up from the new SP is the old slot. -/
theorem slot_succ (sp : Byte) (k : Nat) : sp + BitVec.ofNat 8 (k + 1) = sp + 1#8 + BitVec.ofNat 8 k := by
  rw [Nat.add_comm, BitVec.ofNat_add, BitVec.add_assoc]

/-- The byte below SP is none of the slots of a stack that is not full: SP counts modulo 256 (decision D7). -/
theorem slot_ne_below_sp (sp : Byte) {k : Nat} (hk : k < 255) : (sp + BitVec.ofNat 8 k).toNat ≠ (sp - 1#8).toNat := by
  bv_omega

section

variable {base : Byte} {x : Reg → Byte} {stack : List Byte} {s : State}

/-- PUSH adds the register's value to the stack represented. -/
theorem HoldsStack.push (h : HoldsStack base x stack s) {a : Reg} (ha : a ≠ 7) (hlen : stack.length < 256) :
    ∃ t, exec (.push a) s = .next t ∧ HoldsStack base x (x a :: stack) t := by
  have hsp : (s.setReg Reg.sp (s.spVal - 1#8)).spVal = s.spVal - 1#8 := reg_setReg_self ..
  refine ⟨_, exec_push a s, put_wf h.wf (byte_lt_memSize _), fun r hr => ?regs, ?sp, fun k hk => ?slots⟩
  case regs => exact (reg_setReg_of_ne s 7 r _ hr.symm).trans (h.regs r hr)
  case sp => rw [spVal_setPc, spVal_setMem, hsp, List.length_cons, BitVec.ofNat_add, ← BitVec.sub_sub, ← h.sp]
  case slots =>
    rw [mem_setPc, mem_setMem, spVal_setPc, spVal_setMem, hsp, h.regs a ha]
    cases k with
    | zero => rw [BitVec.add_zero, memRead_put_self h.wf (byte_lt_memSize _), List.getElem_cons_zero]
    | succ k =>
      have hk : k < stack.length := Nat.lt_of_succ_lt_succ hk
      rw [slot_succ, BitVec.sub_add_cancel, memRead_put_of_ne h.wf (slot_ne_below_sp _ (by omega)), h.slots k hk,
        List.getElem_cons_succ]

/-- POP takes the newest value of the stack represented into its register. -/
theorem HoldsStack.pop {v : Byte} (h : HoldsStack base x (v :: stack) s) {a : Reg} (ha : a ≠ 7) :
    ∃ t, exec (.pop a) s = .next t ∧ HoldsStack base (fun r => if r = a then v else x r) stack t := by
  have hsp : ((s.setReg Reg.sp (s.spVal + 1#8)).setReg a (s.mem.byteAt s.spVal.toNat)).spVal = s.spVal + 1#8 :=
    (reg_setReg_of_ne _ _ _ _ ha).trans (reg_setReg_self ..)
  have hv : s.mem.byteAt s.spVal.toNat = v := by
    have htop := h.slots 0 (Nat.succ_pos _)
    rw [BitVec.add_zero] at htop
    exact (memRead_eq_ok htop).2
  refine ⟨_, exec_pop a s, h.wf, fun r hr => ?regs, ?sp, fun k hk => ?slots⟩
  case regs =>
    rw [reg_setPc, reg_setReg, reg_setReg_of_ne s Reg.sp r _ hr.symm, hv, h.regs r hr]
    exact if_congr eq_comm rfl rfl
  case sp =>
    rw [spVal_setPc, hsp, h.sp, List.length_cons, BitVec.ofNat_add, ← BitVec.sub_sub, BitVec.sub_add_cancel]
  case slots =>
    rw [spVal_setPc, hsp, ← slot_succ]
    exact h.slots (k + 1) (Nat.succ_lt_succ hk)

end

/-- The machine runs any sequence that the list stack runs, and represents its answer. -/
theorem HoldsStack.run {base : Byte} {x' : Reg → Byte} {stack' : List Byte} (ops : List StackOp)
    (hops : ∀ o ∈ ops, o.reg ≠ 7) {x : Reg → Byte} {stack : List Byte} {s : State} (h : HoldsStack base x stack s)
    (hrun : stackRun ops x stack = some (x', stack')) :
    ∃ t, execList (ops.map StackOp.instr) s = .next t ∧ HoldsStack base x' stack' t := by
  induction ops generalizing x stack s with
  | nil => cases hrun; exact ⟨s, rfl, h⟩
  | cons o rest ih =>
    obtain ⟨ho, hrest⟩ := List.forall_mem_cons.1 hops
    cases o with
    | push a =>
      obtain ⟨hlen, hrun⟩ := stackRun_push_eq_some hrun
      obtain ⟨t, he, ht⟩ := h.push ho hlen
      exact (execList_cons_of_next he _).symm ▸ ih hrest ht hrun
    | pop a =>
      obtain ⟨v, older, rfl, hrun⟩ := stackRun_pop_eq_some hrun
      obtain ⟨t, he, ht⟩ := h.pop ho
      exact (execList_cons_of_next he _).symm ▸ ih hrest ht hrun

/-- Settles O41: the machine starts with the empty stack at its own SP, and every PUSH and POP keeps step with the
list stack. -/
theorem stackIsLifo : Obligations.StackIsLifo := by
  intro ops s x stack hm hops hrun
  obtain ⟨t, he, ht⟩ := (HoldsStack.empty hm).run ops hops hrun
  exact ⟨t, he, ht.regs, ht.sp, ht.slots⟩

end Sys2Proof.Machine

/-! # The control-flow family: CALL (O37), JMP, JEQ and JNE (O39), and the CALL/RET law (O42) -/

namespace Sys2Proof.Machine

/-! ## CALL -/

/-- Where a CALL can be fetched its return address is a byte (44_control_flow.md R181). -/
theorem toNat_returnAddress_of_le {s : State} (hpc : s.pc ≤ 0xFD) : (returnAddress s).toNat = s.pc + 2 :=
  Nat.mod_eq_of_lt (Nat.add_lt_add_right (Nat.lt_succ_of_le hpc) 2)

/-- Settles O37: CALL pushes its return address and goes on at the value its register held. -/
theorem callPushesReturnAddress : Obligations.CallPushesReturnAddress := by
  intro a s hm
  obtain ⟨t, he, hsp, hret, hmem, hregs, hpc, hflags, hrun, hout⟩ := completes_with_push hm (exec_call a s)
  exact ⟨t, returnAddress s, he, hpc, hsp, hret, toNat_returnAddress_of_le, hmem, hregs, hflags, hrun, hout⟩

/-! ## JMP, JEQ and JNE -/

/-- An instruction that goes on at `p` and writes nothing but pc changes nothing else (44_control_flow.md R180). -/
theorem completes_with_pc {i : Instr} {s : State} {p q : Nat} (he : exec i s = .next (s.setPc p)) (hp : p = q) :
    ∃ t, exec i s = .next t ∧ t.pc = q ∧ KeepsRegs s t [] ∧ t.flags = s.flags ∧ KeepsMem s t [] ∧ t.run = s.run ∧
      t.out = s.out :=
  ⟨_, he, hp, keepsRegs_of_reg_eq fun _ => rfl, rfl, keepsMem_of_mem_eq rfl, rfl, rfl⟩

/-- Settles O39: each of the three writes pc alone; JNE's branches stand the other way round (90_conflicts.md C4). -/
theorem jumpsSetOnlyPc : Obligations.JumpsSetOnlyPc := by
  rintro a s i taken (⟨rfl, rfl⟩ | ⟨rfl, rfl⟩ | ⟨rfl, rfl⟩)
  · exact completes_with_pc (exec_jmp a s) (if_pos rfl).symm
  · exact completes_with_pc (exec_jeq a s) rfl
  · exact completes_with_pc (exec_jne a s) (by cases s.flags.equal <;> rfl)

/-! ## The CALL/RET law -/

/-- Settles O42: RET pops the byte that CALL pushed, and its SP + 1 undoes CALL's SP - 1 modulo 256. -/
theorem callThenRetResumes : Obligations.CallThenRetResumes := by
  intro a s t u hm hpc hcall husp hbyte
  obtain ⟨_, ret, he, -, htsp, hret, hretpc, -⟩ := callPushesReturnAddress a s hm
  cases he.symm.trans hcall
  obtain ⟨w, target, hw, hread, hwpc, hwsp, -⟩ := retPopsPc u
  have hslot : t.spVal = s.spVal - 1#8 :=
    BitVec.eq_of_toNat_eq (htsp.trans (Reference.toNat_sub_one s.spVal).symm)
  have hback : w.spVal = u.spVal + 1#8 :=
    BitVec.eq_of_toNat_eq (hwsp.trans (BitVec.toNat_add u.spVal 1#8).symm)
  have hpop : memRead u.mem u.spVal.toNat = .ok ret := by rw [hbyte, hslot, hret]
  have htarget : target = ret := Except.ok.inj (hread.symm.trans hpop)
  refine ⟨w, hw, ?pc, ?sp⟩
  case pc => rw [hwpc, htarget, hretpc hpc]; rfl
  case sp => rw [hback, husp, hslot, BitVec.sub_add_cancel]

end Sys2Proof.Machine

/-! # The exceptions family: fault entry is precise (O20), what the debug dump shows (O45) -/

namespace Sys2Proof.Machine

/-! ## Fault entry -/

section

variable {cfg : Config} {s t : State} {record : FaultRecord}

/-- Fault entry writes the run state alone, and its record has the final pc (60_exceptions.md R203). -/
theorem raise_eq_setRun {c : FaultCause} (h : (s.raise c).run = .faulted record) :
    s.raise c = s.setRun (.faulted record) ∧ record.pc = (s.raise c).pc := by
  cases h
  exact ⟨rfl, rfl⟩

/-- An instruction that ends the run in a fault ends it by a fault entry: a halt is no fault, and a completion goes on
running. -/
theorem exec_eq_raise_of_faulted {i : Instr} (hrun : s.run = .running) (h : exec i s = .next t)
    (ht : t.run = .faulted record) : ∃ c, t = s.raise c := by
  rcases exec_cases i s with ⟨_, he⟩ | ⟨_, b, _, _, he⟩ | ⟨u, he, hc⟩ <;> cases he.symm.trans h
  · cases ht
  · exact ⟨.divideByZero b, rfl⟩
  · cases (hc.run.trans hrun).symm.trans ht

/-- A step that ends the run in a fault is a fault entry, of fetch and decode or of execute. -/
theorem stepWith_eq_raise_of_faulted (hrun : s.run = .running) (h : stepWith cfg s = .next t)
    (ht : t.run = .faulted record) : ∃ c, t = s.raise c := by
  rcases stepWith_cases cfg s with ⟨_, he⟩ | ⟨_, _, he⟩ | ⟨c, _, _, he⟩ | ⟨i, _, _, he⟩
  · cases he.symm.trans h
  · cases he.symm.trans h
  · cases he.symm.trans h
    exact ⟨c, rfl⟩
  · exact exec_eq_raise_of_faulted hrun (he.symm.trans h) ht

end

/-- Settles O20: such a step is a fault entry, and that writes the run state alone. -/
theorem faultEntryIsPrecise : Obligations.FaultEntryIsPrecise := by
  intro cfg s t record hrun h ht
  obtain ⟨c, rfl⟩ := stepWith_eq_raise_of_faulted hrun h ht
  exact raise_eq_setRun ht

/-! ## The debug dump -/

section

variable {m m' : Memory} {a : Nat} {s t : State}

theorem dumpByte_of_memRead {v : Byte} (h : memRead m a = .ok v) : dumpByte m a = some v := by
  simp [dumpByte, h]

/-- A byte above 0xFF is absent (92_eei_decisions.md D24). -/
theorem dumpByte_of_memSize_le (h : memSize ≤ a) : dumpByte m a = none := by
  simp [dumpByte, memRead_of_le h]

/-- The dump sees of memory what a read of it answers. -/
theorem dumpByte_congr (h : memRead m a = memRead m' a) : dumpByte m a = dumpByte m' a := by
  simp [dumpByte, h]

/-- The dump's window is the three bytes from pc up. -/
theorem debugDump_window (s : State) :
    (debugDump s).window = (List.range 3).map fun k => dumpByte s.mem (s.pc + k) := rfl

theorem debugDump_window_getElem? (s : State) {k : Nat} (hk : k < 3) :
    (debugDump s).window[k]? = some (dumpByte s.mem (s.pc + k)) := by
  simp [debugDump_window, hk]

/-- The dump lists the registers in order. -/
theorem debugDump_regs_getElem? (s : State) (r : Reg) : (debugDump s).regs[r.val]? = some (s.reg r) := by
  simp [debugDump, State.reg]

/-- Register files with the same values list the same values. -/
theorem debugDump_regs_congr (h : ∀ r, s.reg r = t.reg r) : (debugDump s).regs = (debugDump t).regs :=
  congrArg Vector.toList (Vector.ext fun i hi => h ⟨i, hi⟩)

theorem debugDump_window_congr (hpc : s.pc = t.pc)
    (h : ∀ k < 3, memRead s.mem (s.pc + k) = memRead t.mem (s.pc + k)) :
    (debugDump s).window = (debugDump t).window := by
  rw [debugDump_window, debugDump_window, ← hpc]
  exact List.map_congr_left fun k hk => dumpByte_congr (h k (List.mem_range.1 hk))

/-- Two dumps are one when their three parts agree. -/
theorem dump_ext {d e : Dump} (hpc : d.pc = e.pc) (hwindow : d.window = e.window) (hregs : d.regs = e.regs) : d = e := by
  cases d
  cases e
  simp_all

end

/-- Settles O45: each part of the dump is read off by itself, and the three parts are the dump. -/
theorem debugDumpShows : Obligations.DebugDumpShows := by
  constructor
  · intro s
    refine ⟨rfl, s.regs.length_toList, debugDump_regs_getElem? s, rfl, fun k hk v hv => ?_, fun k hk hout => ?_⟩
    · rw [debugDump_window_getElem? s hk, dumpByte_of_memRead hv]
    · rw [debugDump_window_getElem? s hk, dumpByte_of_memSize_le hout]
  · intro s t hregs hpc hwindow
    exact dump_ext hpc (debugDump_window_congr hpc hwindow) (debugDump_regs_congr hregs)

end Sys2Proof.Machine

/-! # The remaining statements: the form of memory (O7), which images are loaded (O9), the states a run starts from
(O10, O11, O12), and the default opcode map (O4, O5) -/

namespace Sys2Proof.Machine

/-! ## The canonical form is one form -/

section

variable {m m' : Memory} {lo a : Nat} {v : Byte}

/-- A canonical memory reads something other than 0 at its first listed address. -/
theorem byteAt_head_ne_zero (hm : Memory.wfFrom lo ((a, v) :: m) = true) : Memory.byteAt ((a, v) :: m) a ≠ 0#8 := by
  obtain ⟨_, _, hv, _⟩ := wfFrom_cons.1 hm
  simpa [Memory.byteAt] using hv

/-- Without its first cell a canonical memory reads 0 where that cell stood, and as before elsewhere. -/
theorem byteAt_tail (hm : Memory.wfFrom lo ((a, v) :: m) = true) (b : Nat) :
    m.byteAt b = if a = b then 0#8 else Memory.byteAt ((a, v) :: m) b := by
  obtain ⟨_, _, _, hrest⟩ := wfFrom_cons.1 hm
  by_cases hab : a = b
  · rw [if_pos hab, byteAt_of_lt_wfFrom hrest (by omega)]
  · simp [Memory.byteAt, hab]

/-- No canonical memory starts above an address where it reads something other than 0. -/
theorem head_le_of_byteAt_ne_zero {b : Nat} (hm : Memory.wfFrom lo ((a, v) :: m) = true)
    (hb : Memory.byteAt ((a, v) :: m) b ≠ 0#8) : a ≤ b := by
  obtain ⟨_, hsize, hv, hrest⟩ := wfFrom_cons.1 hm
  have hfrom : Memory.wfFrom a ((a, v) :: m) = true := wfFrom_cons.2 ⟨Nat.le_refl a, hsize, hv, hrest⟩
  exact Nat.le_of_not_lt fun hlt => hb (byteAt_of_lt_wfFrom hfrom hlt)

/-- Canonical memories that hold the same byte at every address are equal data: both list the same first cell, since
neither can start above the other, and their tails hold the same bytes again. -/
theorem wfFrom_ext : ∀ {m m' : Memory} {lo : Nat}, Memory.wfFrom lo m = true → Memory.wfFrom lo m' = true →
    (∀ a, m.byteAt a = m'.byteAt a) → m = m'
  | [], [], _, _, _, _ => rfl
  | [], (k, _) :: _, _, _, hm', h => absurd (h k).symm (byteAt_head_ne_zero hm')
  | (k, _) :: _, [], _, hm, _, h => absurd (h k) (byteAt_head_ne_zero hm)
  | (k, w) :: rest, (k', w') :: rest', lo, hm, hm', h => by
    have hle : k ≤ k' := head_le_of_byteAt_ne_zero hm (h k' ▸ byteAt_head_ne_zero hm')
    have hge : k' ≤ k := head_le_of_byteAt_ne_zero hm' (h k ▸ byteAt_head_ne_zero hm)
    obtain rfl : k = k' := Nat.le_antisymm hle hge
    obtain rfl : w = w' := by simpa [Memory.byteAt] using h k
    obtain ⟨_, _, _, hrest⟩ := wfFrom_cons.1 hm
    obtain ⟨_, _, _, hrest'⟩ := wfFrom_cons.1 hm'
    rw [wfFrom_ext hrest hrest' fun a => by rw [byteAt_tail hm, byteAt_tail hm', h a]]

/-- Canonical memories that read alike inside memory hold the same byte at every address: outside, neither lists
anything. -/
theorem byteAt_eq_of_memRead_eq (hm : m.wf = true) (hm' : m'.wf = true)
    (h : ∀ a < memSize, memRead m a = memRead m' a) (a : Nat) : m.byteAt a = m'.byteAt a := by
  by_cases ha : a < memSize
  · simpa [ha] using h a ha
  · have hge : memSize ≤ a := Nat.le_of_not_lt ha
    rw [byteAt_of_memSize_le hm hge, byteAt_of_memSize_le hm' hge]

end

/-- Settles O7: reads inside memory say what a canonical memory holds everywhere, and that fixes its list. -/
theorem memoryFormIsUnique : Obligations.MemoryFormIsUnique := by
  intro m m' hm hm' h
  exact wfFrom_ext hm hm' (byteAt_eq_of_memRead_eq hm hm' fun a ha => h a (Nat.le_of_lt_succ ha))

/-! ## Which images are loaded -/

/-- Exactly the images of at most 256 byte values are loaded (30_encoding.md R96), and each into one state. -/
theorem loadImage_eq_some_iff {cfg : Config} {img : List Nat} {s : State} :
    loadImage cfg img = some s ↔
      (img.length ≤ memSize ∧ ∀ v ∈ img, v ≤ 255) ∧ (State.resetWith cfg).setMem (Memory.ofImage 0 img) = s := by
  simp [loadImage]

/-- Settles O9: an image is loaded when it is short enough and all its values are bytes, and fails to be exactly when
one of the two fails. -/
theorem unfitImageRefused : Obligations.UnfitImageRefused := by
  intro cfg img
  constructor
  · intro hnone
    by_contra hfits
    push Not at hfits
    obtain ⟨hlen, hbyte⟩ := hfits
    exact absurd (loadImage_of_fits cfg hlen hbyte) (by simp [hnone])
  · intro hunfit
    refine Option.eq_none_iff_forall_ne_some.2 fun s hs => ?_
    obtain ⟨⟨hlen, hbyte⟩, _⟩ := loadImage_eq_some_iff.1 hs
    rcases hunfit with hlong | ⟨v, hv, hbig⟩
    · exact absurd hlong (Nat.not_lt.2 hlen)
    · exact absurd hbig (Nat.not_lt.2 (hbyte v hv))

/-! ## The states a run starts from -/

/-- While the run goes on, nothing is asked of its end: the other three clauses are the whole invariant. -/
theorem Inv.of_running {cfg : Config} {s : State} (hrun : s.run = .running) (hmem : s.mem.wf = true)
    (hpc : s.pc ≤ 0x100) (hflags : atMostOneFlag s.flags = true) : Inv cfg s where
  memWf := hmem
  pcLe := hpc
  flagsExclusive := hflags
  haltedAtHlt h := by simp [hrun] at h
  faultedRecord _ h := by simp [hrun] at h

/-- Settles O12: a loaded state is Running at pc 0 with the reset flags, and an image that fits is laid out in
canonical form. -/
theorem loadedStateMeetsInvariant : Obligations.LoadedStateMeetsInvariant := by
  intro cfg img s hflags hload
  obtain ⟨⟨hlen, _⟩, rfl⟩ := loadImage_eq_some_iff.1 hload
  have hmem : (Memory.ofImage 0 img).wf = true := ofImage_wfFrom img 0 (by rwa [Nat.zero_add])
  exact .of_running rfl hmem (Nat.zero_le _) hflags

/-- The reset state is the state loaded from the empty image (70_reset_and_hazards.md R230). -/
theorem loadImage_nil (cfg : Config) : loadImage cfg [] = some (State.resetWith cfg) := rfl

/-- Settles O11: the reset state is a loaded state, and no flag is set in it. -/
theorem resetMeetsInvariant : Obligations.ResetMeetsInvariant :=
  loadedStateMeetsInvariant Config.standard [] State.reset rfl (loadImage_nil Config.standard)

/-- The register file after reset: zeros, and SP_RESET in R7 (70_reset_and_hazards.md R230). -/
theorem reg_reset (r : Reg) : State.reset.reg r = if r = 7 then 0xF4 else 0 := by
  revert r
  decide

/-- Settles O10: the fields are as `resetWith` writes them, and memory lists no cell, so every read inside it answers
0. -/
theorem resetValues : Obligations.ResetValues := by
  refine ⟨fun r hr => ?_, reg_reset 7, rfl, rfl, fun a ha => ?_, rfl, rfl⟩
  · exact (reg_reset r).trans (if_neg hr)
  · exact memRead_of_lt (Nat.lt_succ_of_le ha)

end Sys2Proof.Machine

namespace Sys2Proof

/-! ## The default opcode map -/

/-- Settles O4: every word is closed, and the decoder evaluates to the instruction or the refusal stated for it. -/
theorem specWordsDecode : Obligations.SpecWordsDecode :=
  ⟨rfl, rfl, rfl, rfl, rfl, rfl, rfl, rfl, rfl, rfl⟩

/-- The legal opcode bytes are those of the dispatched mnemonics (30_encoding.md R88). -/
theorem dispatch_isSome_iff {cfg : Config} {opcode : Byte} :
    (cfg.dispatch opcode).isSome = true ↔ ∃ o, cfg.dispatched o = true ∧ cfg.opcodeMap o = opcode := by
  rw [← Option.ne_none_iff_isSome, Ne, dispatch_none]
  simp

/-- Under a well-formed map the legal bytes, in rising order, are the dispatched mnemonics' opcode bytes in some
order. -/
theorem legalBytes_perm {cfg : Config} (hw : cfg.wellFormed = true) :
    ((List.range 256).filter fun n => (cfg.dispatch (BitVec.ofNat 8 n)).isSome).Perm
      ((Op.all.filter cfg.dispatched).map fun o => (cfg.opcodeMap o).toNat) := by
  have hall : Op.all.Nodup := by decide
  have hrows : ((Op.all.filter cfg.dispatched).map fun o => (cfg.opcodeMap o).toNat).Nodup := by
    refine (hall.filter _).map_on fun p hp q hq heq => ?_
    exact opcodeMap_inj hw (List.mem_filter.1 hp).2 (List.mem_filter.1 hq).2 (BitVec.eq_of_toNat_eq heq)
  refine (List.perm_ext_iff_of_nodup (List.nodup_range.filter _) hrows).2 fun n => ?_
  simp only [List.mem_filter, List.mem_range, List.mem_map, mem_all, true_and, dispatch_isSome_iff]
  constructor
  · rintro ⟨hn, o, ho, hop⟩
    exact ⟨o, ho, by rw [hop, BitVec.toNat_ofNat, Nat.mod_eq_of_lt hn]⟩
  · rintro ⟨o, ho, rfl⟩
    exact ⟨(cfg.opcodeMap o).isLt, o, ho, by simp⟩

/-- A well-formed map has one legal byte per dispatched mnemonic. -/
theorem countP_legalBytes {cfg : Config} (hw : cfg.wellFormed = true) :
    (List.range 256).countP (fun n => (cfg.dispatch (BitVec.ofNat 8 n)).isSome) = Op.all.countP cfg.dispatched := by
  rw [List.countP_eq_length_filter, (legalBytes_perm hw).length_eq, List.length_map, List.countP_eq_length_filter]

/-- Settles O5: the bit fields are read off row by row, and the legal bytes are counted by the dispatched mnemonics,
15 with EXT_ALU and 12 without. -/
theorem opcodeMapShape : Obligations.OpcodeMapShape := by
  refine ⟨fun o => ?_, countP_legalBytes standard_wellFormed, countP_legalBytes (by decide)⟩
  cases o <;> decide

end Sys2Proof
